-- ==== Sys2Proof/Word.lean ====
section
/-! DEFINITION. The word types of the nn core (00_scope.md R10, R12; 30_encoding.md R102). -/

namespace Sys2Proof

/-- A byte: a general register, a memory cell, the immediate `nn` (R10 `V_WIDTH`, R102). -/
abbrev Byte := BitVec 8

/-- A 16-bit value: an instruction word, `pc`, `I`, a stack entry (R10). -/
abbrev Word := BitVec 16

/-- A 4-bit field of an instruction word: a register number `x` or `y`, the row count `n`; also a key code (R102, R300). -/
abbrev Nibble := BitVec 4

/-- The 12-bit operand `nnn` (R102). -/
abbrev Addr12 := BitVec 12

end Sys2Proof
end

