-- ==== Sys2Proof/Syntax.lean ====
section
/-! DEFINITION. The closed tagged union the Decoder returns: 33 instructions and `Illegal`, one constructor per row of
spec/opcode_table.json, with the operands of 30_encoding.md R115. -/

namespace Sys2Proof

/-- An Operation (30_encoding.md R115). -/
inductive Instr where
  /-- 00E0 (R276) -/
  | clearScreen
  /-- 00EE (R200) -/
  | return_
  /-- 1nnn (R201) -/
  | jump (nnn : Addr12)
  /-- 2nnn (R202) -/
  | call (nnn : Addr12)
  /-- 3xnn (R203) -/
  | skipEqual (x : Nibble) (nn : Byte)
  /-- 4xnn (R204) -/
  | skipNotEqual (x : Nibble) (nn : Byte)
  /-- 5xy0 (R205) -/
  | skipEqualXY (x y : Nibble)
  /-- 6xnn (R230) -/
  | move (x : Nibble) (nn : Byte)
  /-- 7xnn (R231) -/
  | add (x : Nibble) (nn : Byte)
  /-- 8xy0 (R232) -/
  | moveXY (x y : Nibble)
  /-- 8xy1 (R233) -/
  | or (x y : Nibble)
  /-- 8xy2 (R234) -/
  | and (x y : Nibble)
  /-- 8xy3 (R235) -/
  | xor (x y : Nibble)
  /-- 8xy4 (R236) -/
  | addXY (x y : Nibble)
  /-- 8xy5 (R237) -/
  | subXY (x y : Nibble)
  /-- 8xy6 (R238) -/
  | shiftRight (x y : Nibble)
  /-- 8xy7 (R239) -/
  | subYX (x y : Nibble)
  /-- 8xyE (R240) -/
  | shiftLeft (x y : Nibble)
  /-- 9xy0 (R206) -/
  | skipNotEqualXY (x y : Nibble)
  /-- Annn (R250) -/
  | moveIndex (nnn : Addr12)
  /-- Cxnn (R241) -/
  | random (x : Nibble) (nn : Byte)
  /-- Dxyn (R277) -/
  | draw (x y n : Nibble)
  /-- Ex9E (R301) -/
  | skipKey (x : Nibble)
  /-- ExA1 (R302) -/
  | skipNotKey (x : Nibble)
  /-- Fx07 (R304) -/
  | delayTimerGet (x : Nibble)
  /-- Fx0A (R303) -/
  | getKey (x : Nibble)
  /-- Fx15 (R305) -/
  | delayTimerSet (x : Nibble)
  /-- Fx18 (R306) -/
  | setSoundTimer (x : Nibble)
  /-- Fx1E (R251) -/
  | addIndex (x : Nibble)
  /-- Fx29 (R252) -/
  | fontChar (x : Nibble)
  /-- Fx33 (R253) -/
  | decimal (x : Nibble)
  /-- Fx55 (R254) -/
  | store (x : Nibble)
  /-- Fx65 (R255) -/
  | load (x : Nibble)
  /-- every other word (R113, R400) -/
  | illegal (w : Word)
  deriving DecidableEq, Repr

end Sys2Proof
end

