-- ==== Sys2Proof/WellFormed.lean ====
section
/-! DEFINITION. Which Operations the Decoder can give. The operand types of Syntax.lean already bound every operand of
the 33 instructions (30_encoding.md R115); what is left to check is that `illegal w` holds a word of the illegal space. -/

namespace Sys2Proof

/-- The illegal space, written from the list of 30_encoding.md R113, one line per item of that list. -/
def illegalWord (w : Word) : Bool :=
  let family := w.extractLsb' 12 4
  let n := w.extractLsb' 0 4
  let nn := w.extractLsb' 0 8
  (family == 0x0#4 && !(w == 0x00E0#16 || w == 0x00EE#16))
  || ((family == 0x5#4 || family == 0x9#4) && !(n == 0x0#4))
  || (family == 0x8#4 && [0x8#4, 0x9#4, 0xA#4, 0xB#4, 0xC#4, 0xD#4, 0xF#4].contains n)
  || family == 0xB#4
  || (family == 0xE#4 && !([0x9E#8, 0xA1#8].contains nn))
  || (family == 0xF#4
      && !([0x07#8, 0x0A#8, 0x15#8, 0x18#8, 0x1E#8, 0x29#8, 0x33#8, 0x55#8, 0x65#8].contains nn))

/-- A well-formed Operation: one the Decoder gives for some word (30_encoding.md R114: "Every word is either one of the
33 instructions or Illegal"). -/
def Instr.wf : Instr → Bool
  | .illegal w => illegalWord w
  | _ => true

end Sys2Proof
end

