-- ==== Sys2Proof/Decode.lean ====
section
/-! DEFINITION. The Decoder (30_encoding.md R100-R116), total on every word, and the encoder (R117). -/

namespace Sys2Proof

/-- `x = w[11:8]` (R102). -/
def fieldX (w : Word) : Nibble := w.extractLsb' 8 4

/-- `y = w[7:4]` (R102). -/
def fieldY (w : Word) : Nibble := w.extractLsb' 4 4

/-- `n = w[3:0]` (R102). -/
def fieldN (w : Word) : Nibble := w.extractLsb' 0 4

/-- `nn = w[7:0]` (R102). -/
def fieldNN (w : Word) : Byte := w.extractLsb' 0 8

/-- `nnn = w[11:0]` (R102). -/
def fieldNNN (w : Word) : Addr12 := w.extractLsb' 0 12

/-- The family nibble `w[15:12]` (R101). -/
def fieldFamily (w : Word) : Nibble := w.extractLsb' 12 4

/-- Family 0x8, selected by `n` (R111). -/
def decodeAlu (w : Word) : Instr :=
  match fieldN w with
  | 0x0#4 => .moveXY (fieldX w) (fieldY w)
  | 0x1#4 => .or (fieldX w) (fieldY w)
  | 0x2#4 => .and (fieldX w) (fieldY w)
  | 0x3#4 => .xor (fieldX w) (fieldY w)
  | 0x4#4 => .addXY (fieldX w) (fieldY w)
  | 0x5#4 => .subXY (fieldX w) (fieldY w)
  | 0x6#4 => .shiftRight (fieldX w) (fieldY w)
  | 0x7#4 => .subYX (fieldX w) (fieldY w)
  | 0xE#4 => .shiftLeft (fieldX w) (fieldY w)
  | _ => .illegal w

/-- Family 0xE, selected by `nn` (R111). -/
def decodeKeys (w : Word) : Instr :=
  match fieldNN w with
  | 0x9E#8 => .skipKey (fieldX w)
  | 0xA1#8 => .skipNotKey (fieldX w)
  | _ => .illegal w

/-- Family 0xF, selected by `nn` (R111). -/
def decodeMisc (w : Word) : Instr :=
  match fieldNN w with
  | 0x07#8 => .delayTimerGet (fieldX w)
  | 0x0A#8 => .getKey (fieldX w)
  | 0x15#8 => .delayTimerSet (fieldX w)
  | 0x18#8 => .setSoundTimer (fieldX w)
  | 0x1E#8 => .addIndex (fieldX w)
  | 0x29#8 => .fontChar (fieldX w)
  | 0x33#8 => .decimal (fieldX w)
  | 0x55#8 => .store (fieldX w)
  | 0x65#8 => .load (fieldX w)
  | _ => .illegal w

/-- The decode function in full (R111). An unlisted word is rejected by name: it becomes `illegal w` (R114). -/
def decode (w : Word) : Instr :=
  match fieldFamily w with
  | 0x0#4 => if w = 0x00E0#16 then .clearScreen else if w = 0x00EE#16 then .return_ else .illegal w
  | 0x1#4 => .jump (fieldNNN w)
  | 0x2#4 => .call (fieldNNN w)
  | 0x3#4 => .skipEqual (fieldX w) (fieldNN w)
  | 0x4#4 => .skipNotEqual (fieldX w) (fieldNN w)
  | 0x5#4 => if fieldN w = 0x0#4 then .skipEqualXY (fieldX w) (fieldY w) else .illegal w
  | 0x6#4 => .move (fieldX w) (fieldNN w)
  | 0x7#4 => .add (fieldX w) (fieldNN w)
  | 0x8#4 => decodeAlu w
  | 0x9#4 => if fieldN w = 0x0#4 then .skipNotEqualXY (fieldX w) (fieldY w) else .illegal w
  | 0xA#4 => .moveIndex (fieldNNN w)
  | 0xC#4 => .random (fieldX w) (fieldNN w)
  | 0xD#4 => .draw (fieldX w) (fieldY w) (fieldN w)
  | 0xE#4 => decodeKeys w
  | 0xF#4 => decodeMisc w
  | _ => .illegal w

/-- The word of two bytes in memory order, big-endian: the byte at the lower address is bits 15..8 (20_memory.md R75). -/
def wordOfBytes (hi lo : Byte) : Word := hi.setWidth 16 <<< 8 ||| lo.setWidth 16

/-- The byte of a word that stands at the lower address (20_memory.md R75). -/
def wordHi (w : Word) : Byte := w.extractLsb' 8 8

/-- The byte of a word that stands at the higher address (20_memory.md R75). -/
def wordLo (w : Word) : Byte := w.extractLsb' 0 8

/-- Decoding from bytes in memory order: a decoder always consumes 2 bytes (R100). Fewer than two bytes are no
instruction word: none. -/
def decodeBytes : List Byte → Option (Instr × List Byte)
  | hi :: lo :: rest => some (decode (wordOfBytes hi lo), rest)
  | _ => none

/-- Format NNN (R101, R117). -/
def encodeNNN (family : Nibble) (nnn : Addr12) : Word := family.setWidth 16 <<< 12 ||| nnn.setWidth 16

/-- Format XNN (R101, R117). -/
def encodeXNN (family x : Nibble) (nn : Byte) : Word :=
  family.setWidth 16 <<< 12 ||| x.setWidth 16 <<< 8 ||| nn.setWidth 16

/-- Formats XY and XYN (R101, R117): `n` is the sub-opcode in XY. -/
def encodeXYN (family x y n : Nibble) : Word :=
  family.setWidth 16 <<< 12 ||| x.setWidth 16 <<< 8 ||| y.setWidth 16 <<< 4 ||| n.setWidth 16

/-- Format X (R101, R117): the low byte is the sub-opcode. -/
def encodeX (family x : Nibble) (sub : Byte) : Word := encodeXNN family x sub

/-- The word of an Operation (R117), from spec/opcode_table.json's patterns. `illegal w` stands for its own word. -/
def encode : Instr → Word
  | .clearScreen => 0x00E0#16
  | .return_ => 0x00EE#16
  | .jump nnn => encodeNNN 0x1#4 nnn
  | .call nnn => encodeNNN 0x2#4 nnn
  | .skipEqual x nn => encodeXNN 0x3#4 x nn
  | .skipNotEqual x nn => encodeXNN 0x4#4 x nn
  | .skipEqualXY x y => encodeXYN 0x5#4 x y 0x0#4
  | .move x nn => encodeXNN 0x6#4 x nn
  | .add x nn => encodeXNN 0x7#4 x nn
  | .moveXY x y => encodeXYN 0x8#4 x y 0x0#4
  | .or x y => encodeXYN 0x8#4 x y 0x1#4
  | .and x y => encodeXYN 0x8#4 x y 0x2#4
  | .xor x y => encodeXYN 0x8#4 x y 0x3#4
  | .addXY x y => encodeXYN 0x8#4 x y 0x4#4
  | .subXY x y => encodeXYN 0x8#4 x y 0x5#4
  | .shiftRight x y => encodeXYN 0x8#4 x y 0x6#4
  | .subYX x y => encodeXYN 0x8#4 x y 0x7#4
  | .shiftLeft x y => encodeXYN 0x8#4 x y 0xE#4
  | .skipNotEqualXY x y => encodeXYN 0x9#4 x y 0x0#4
  | .moveIndex nnn => encodeNNN 0xA#4 nnn
  | .random x nn => encodeXNN 0xC#4 x nn
  | .draw x y n => encodeXYN 0xD#4 x y n
  | .skipKey x => encodeX 0xE#4 x 0x9E#8
  | .skipNotKey x => encodeX 0xE#4 x 0xA1#8
  | .delayTimerGet x => encodeX 0xF#4 x 0x07#8
  | .getKey x => encodeX 0xF#4 x 0x0A#8
  | .delayTimerSet x => encodeX 0xF#4 x 0x15#8
  | .setSoundTimer x => encodeX 0xF#4 x 0x18#8
  | .addIndex x => encodeX 0xF#4 x 0x1E#8
  | .fontChar x => encodeX 0xF#4 x 0x29#8
  | .decimal x => encodeX 0xF#4 x 0x33#8
  | .store x => encodeX 0xF#4 x 0x55#8
  | .load x => encodeX 0xF#4 x 0x65#8
  | .illegal w => w

/-- The instruction word that spec/opcode_table.json numbers: `nbits` bits of `w`, every bit above them 0, up to the one
16-bit word every instruction is (R100). -/
def tableWord (nbits w : Nat) : Word := BitVec.ofNat 16 (w % 2 ^ nbits)

/-- The instruction the decoder reads from a table word laid out as the hardware stores it: high byte first (R75). -/
def decodeTableWord (nbits w : Nat) : Option Instr :=
  (decodeBytes [wordHi (tableWord nbits w), wordLo (tableWord nbits w)]).map (·.1)

end Sys2Proof
end

