-- ==== Sys2Proof/Config.lean ====
section
/-! DEFINITION. The fixed sizes of the nn core (00_scope.md R10) and its free values (R15). -/

namespace Sys2Proof

/-- `MEM_SIZE` (R10, 20_memory.md R70). -/
def Config.memSize : Nat := 4096

/-- `PROGRAM_START`, the ROM load address and the reset value of `pc` (R10). -/
def Config.programStart : Nat := 0x200

/-- `MAX_ROM` = 4096 - 512 (R10, 70_reset_and_hazards.md R451). -/
def Config.maxRom : Nat := 3584

/-- `DISP_W`: the number of columns (R10, 10_state.md R36). -/
abbrev Config.dispW : Nat := 64

/-- `DISP_H`: the number of rows (R10, 10_state.md R36). -/
abbrev Config.dispH : Nat := 32

/-- FREE VALUE (log entry 3): the byte `draw_u8()` gives at the draw with this number. It has no body: nothing
constrains it (00_scope.md R15; 41_register_alu.md R241: "a free 8-bit input under no law"). -/
opaque Config.randomByte : Nat → Byte

/-- FREE VALUE (log entry 4): which of several pressed keys `GetKey` takes at the draw with this number, taken
modulo their count. It has no body (00_scope.md R15; 44_keys_timer.md R303: "any element of keys"). -/
opaque Config.keyChoice : Nat → Nat

end Sys2Proof
end

