-- ==== Sys2Proof/Machine/State.lean ====
section
/-! DEFINITION. The machine state record of 10_state.md R31, field by field, as plain data; the stops; the state after
reset (R45). -/

namespace Sys2Proof.Machine

/-- Memory as the cells that differ from the reset contents: addresses strictly rising, all below 4096, no cell equal to
what an unlisted address reads as (Machine/Ops.lean: `Memory.wf`; log entry 9). -/
abbrev Memory := List Host.Cell

/-- V0..VF (R32). -/
abbrev Regs := Vector Byte 16

/-- The display grid (R36): `g[row][col]`, rows top to bottom, columns left to right, `true` is on. -/
abbrev Grid := Vector (Vector Bool Config.dispW) Config.dispH

/-- The set of pressed key codes (R31, 60_exceptions.md R421): entry `k` says whether key `k` is pressed. -/
abbrev Keys := Vector Bool 16

/-- The record of a fault (10_state.md R40; 60_exceptions.md R402). -/
inductive HaltRecord where
  /-- the word `w` fetched at `fa` decoded to Illegal (R400) -/
  | illegalOpcode (fa w : Word)
  /-- the Return at `fa` found the stack empty (R401) -/
  | stackUnderflow (fa : Word)
  deriving DecidableEq, Repr

/-- The engine's run status (R40). -/
inductive Status where
  /-- the engine takes the next step normally -/
  | running
  /-- GetKey with destination `V[x]` is suspended until a key is pressed -/
  | waitKey (x : Nibble)
  /-- the engine has stopped for good -/
  | halted (record : HaltRecord)
  deriving DecidableEq, Repr

/-- One transaction of the interleaving (00_scope.md R9): whose move it is, and what the Host moves. -/
inductive Transaction where
  /-- the Engine's turn (30_encoding.md R120-R122) -/
  | engine
  /-- the Timer's tick (44_keys_timer.md R310) -/
  | tick
  /-- the Host changes the pressed-key set (60_exceptions.md R421) -/
  | setKeys (ks : Keys)
  /-- the Host reports that the run should stop (60_exceptions.md R424) -/
  | close
  deriving DecidableEq, Repr

/-- The complete state of the nn core: exactly the ten fields of R31. -/
structure Record where
  /-- 4096 bytes of memory (R39) -/
  mem : Memory
  /-- the general registers V0..VF (R32) -/
  V : Regs
  /-- the index register (R48) -/
  I : Word
  /-- the program counter (R34) -/
  pc : Word
  /-- the call stack, top first (R35) -/
  stack : List Word
  /-- the display grid (R36) -/
  disp : Grid
  /-- the delay-timer value (R37) -/
  dt : Byte
  /-- the engine's run status (R40) -/
  status : Status
  /-- the pressed keys, owned by the Host (R41) -/
  keys : Keys
  /-- the Host has reported "closed" (R41) -/
  closed : Bool
  deriving DecidableEq, Repr

/-- The inputs of a run still to be consumed: "inputs and parameters, not state" (R42). A run has them from its start
(Machine/HostSide.lean: `State.start`), and each transaction takes from them what it uses. -/
structure Inputs where
  /-- the schedule: the transactions to come, next first; when none is listed the Engine moves (R9, R15; log entry 1) -/
  schedule : List Transaction
  /-- how many draws have been taken: where the free values of Config are read next (R15; log entry 5) -/
  draws : Nat
  deriving DecidableEq, Repr

/-- What a step works on: the state record of R31, and beside it the inputs of R42 that the run has still to consume
(log entry 1: the interface of a step has no other place for an input). -/
structure State extends Record, Inputs
  deriving DecidableEq, Repr

/-- Why the machine stops: the run has ended (60_exceptions.md R427). -/
inductive Fault where
  /-- Raised by the Engine's turn when `status` is Halted(StackUnderflow(fa)): "error termination", which "ends the run
  at once" (R427, R401). Safe: the spec gives the engine no further step (log entry 10). -/
  | stackUnderflow (fa : Word)
  /-- Raised by the Engine's turn when the Host has closed: "normal termination" (R427, R424), told apart from the error
  by its name. Safe: the spec gives the engine no further step (log entry 10). -/
  | hostClosed
  deriving DecidableEq, Repr

/-- What the model gives no run. -/
inductive Refusal where
  /-- Raised by `exec` for an instruction that has no meaning yet; no arm raises it. Safe. -/
  | notModelled (mnemonic : String)
  /-- Raised by the ROM load (Machine/HostSide.lean) for a ROM longer than 3584 bytes: "A model refuses a longer ROM and
  gives it no run" (70_reset_and_hazards.md R451). Safe (log entry 14). -/
  | romTooLong (length : Nat)
  deriving DecidableEq, Repr

/-- The state record after reset (R45, 70_reset_and_hazards.md R450). Memory lists nothing: an unlisted address reads as
its reset contents. Not the spec's: no key pressed (log entry 6). -/
def Record.reset : Record where
  mem := []
  V := Vector.replicate 16 0
  I := 0
  pc := 0x0200
  stack := []
  disp := Vector.replicate Config.dispH (Vector.replicate Config.dispW false)
  dt := 0
  status := .running
  keys := Vector.replicate 16 false
  closed := false

/-- No input supplied: no transaction listed (log entry 1), no draw taken (log entry 5). -/
def Inputs.none : Inputs where
  schedule := []
  draws := 0

/-- The machine right after reset, before the Host has supplied any input of a run. -/
def State.reset : State where
  toRecord := Record.reset
  toInputs := Inputs.none

end Sys2Proof.Machine
end

