-- ==== Sys2Proof/Machine/Font.lean ====
section
/-! DEFINITION. The font parameters of 00_scope.md R11 at the spec's defaults (D12; 43_display.md R285), and the reset
contents of memory (10_state.md R45). -/

namespace Sys2Proof.Machine

/-- `FONT_BASE`, the address of glyph 0 (R11, D12; log entry 8). -/
def fontBase : Nat := 0x000

/-- `GLYPH_BYTES`, the spacing between glyphs (R11, D12; log entry 8). -/
def glyphBytes : Nat := 5

/-- `FONT_PRESENT`, whether reset loads the font (R11, D12; log entry 8). -/
def fontPresent : Bool := true

/-- `FONT_DATA`, glyphs 0 to 7 (R285). -/
def fontLow : List Byte :=
  [0xF0, 0x90, 0x90, 0x90, 0xF0] ++ [0x20, 0x60, 0x20, 0x20, 0x70] ++
  [0xF0, 0x10, 0xF0, 0x80, 0xF0] ++ [0xF0, 0x10, 0xF0, 0x10, 0xF0] ++
  [0x90, 0x90, 0xF0, 0x10, 0x10] ++ [0xF0, 0x80, 0xF0, 0x10, 0xF0] ++
  [0xF0, 0x80, 0xF0, 0x90, 0xF0] ++ [0xF0, 0x10, 0x20, 0x40, 0x40]

/-- `FONT_DATA`, glyphs 8 to F (R285). -/
def fontHigh : List Byte :=
  [0xF0, 0x90, 0xF0, 0x90, 0xF0] ++ [0xF0, 0x90, 0xF0, 0x10, 0xF0] ++
  [0xF0, 0x90, 0xF0, 0x90, 0x90] ++ [0xE0, 0x90, 0xE0, 0x90, 0xE0] ++
  [0xF0, 0x80, 0x80, 0x80, 0xF0] ++ [0xE0, 0x90, 0x90, 0x90, 0xE0] ++
  [0xF0, 0x80, 0xF0, 0x80, 0xF0] ++ [0xF0, 0x80, 0xF0, 0x80, 0x80]

/-- `FONT_DATA` (R285; log entry 8: PRESUMED, the spec takes the bytes from general knowledge). -/
def fontData : List Byte := fontLow ++ fontHigh

/-- The reset contents of the byte at `a` (R45): font data in the font region if the font is present, else zero. It is
also what an unlisted address reads as (log entry 9). -/
def resetByte (a : Nat) : Byte :=
  if fontPresent && decide (fontBase ≤ a) && decide (a < fontBase + 16 * glyphBytes) then
    fontData.getD (a - fontBase) 0
  else 0

end Sys2Proof.Machine
end

