-- ==== Sys2Proof/Machine/Ops.lean ====
section
/-! DEFINITION. The pseudocode primitives of 00_scope.md R13 over State: memory, registers, fetch, stack, skip, raise,
the draws, the Timer's tick and the Host's moves. -/

namespace Sys2Proof.Machine

/-! ### Memory (20_memory.md) -/

/-- The canonical form: addresses strictly rising and below 4096, no cell equal to the reset contents (log entry 9). -/
abbrev Memory.wf (m : Memory) : Prop :=
  m.Pairwise (fun c d => c.1 < d.1) ∧ ∀ c ∈ m, c.1 < Config.memSize ∧ c.2 ≠ resetByte c.1

/-- The byte in the cell `a`: the listed one, else the reset contents. `a` is not reduced here. -/
def Memory.cell : Memory → Nat → Byte
  | [], a => resetByte a
  | (b, u) :: m, a => if b = a then u else Memory.cell m a

/-- Lists `v` at `a`, in order. -/
def Memory.insert : Memory → Nat → Byte → Memory
  | [], a, v => [(a, v)]
  | (b, u) :: m, a, v =>
    if a < b then (a, v) :: (b, u) :: m
    else if a = b then (a, v) :: m
    else (b, u) :: Memory.insert m a v

/-- Unlists `a`, which then reads as its reset contents. -/
def Memory.erase (m : Memory) (a : Nat) : Memory := m.filter (fun c => c.1 != a)

/-- `MemRead(a, 1) = mem[a mod 4096]` (R72). -/
def Memory.read (m : Memory) (a : Nat) : Byte := m.cell (a % Config.memSize)

/-- `MemWrite(a, 1, v)`: `mem[a mod 4096] <- v`, no other byte changes (R73). -/
def Memory.write (m : Memory) (a : Nat) (v : Byte) : Memory :=
  if v = resetByte (a % Config.memSize) then m.erase (a % Config.memSize)
  else m.insert (a % Config.memSize) v

/-- Writes bytes at ascending addresses from `a` (R78). -/
def Memory.writeBlock : Memory → Nat → List Byte → Memory
  | m, _, [] => m
  | m, a, v :: vs => Memory.writeBlock (m.write a v) (a + 1) vs

/-- `MemRead` on the machine's memory (R72). -/
def State.readMem (s : State) (a : Nat) : Byte := s.mem.read a

/-- `MemWrite` on the machine's memory, at ascending addresses (R73, R78). -/
def State.writeMem (s : State) (a : Nat) (vs : List Byte) : State :=
  { s with mem := s.mem.writeBlock a vs }

/-- `Fetch16(a)` (R75): big-endian, each byte's address reduced modulo 4096. -/
def State.fetch16 (s : State) (a : Word) : Word :=
  wordOfBytes (s.readMem a.toNat) (s.readMem (a.toNat + 1))

/-! ### Registers (10_state.md) -/

/-- `V[x]` (R13, R32). -/
def State.reg (s : State) (x : Nibble) : Byte := s.V[x.toNat]

/-- `V[x] <- v` (R13, R32). -/
def State.setReg (s : State) (x : Nibble) (v : Byte) : State :=
  { s with V := s.V.set x.toNat v }

/-- The number of VF, the flag register: `VF` is `V[15]` (R13, R33). -/
def regVF : Nibble := 0xF#4

/-- `V[k]`, `V[k+1]`, ... receive the bytes at `I + k`, `I + k + 1`, ..., `n` of them, ascending (R255). -/
def State.loadRegs : State → Nat → Nat → State
  | s, _, 0 => s
  | s, k, n + 1 => State.loadRegs (s.setReg (BitVec.ofNat 4 k) (s.readMem (s.I.toNat + k))) (k + 1) n

/-- `I <- v` (R13, R48). -/
def State.setIndex (s : State) (v : Word) : State := { s with I := v }

/-- `pc <- t` (R13, R34). -/
def State.setPc (s : State) (t : Word) : State := { s with pc := t }

/-- `dt <- v` (R37). -/
def State.setDt (s : State) (v : Byte) : State := { s with dt := v }

/-- The grid is replaced (R36). -/
def State.setDisp (s : State) (g : Grid) : State := { s with disp := g }

/-! ### Program counter and call stack (30_encoding.md, 40_control_flow.md) -/

/-- `pc <- pc + 2`, modulo 2^16: the step's increment (R120), and a skip (R207). -/
def State.advance (s : State) : State := s.setPc (s.pc + 2)

/-- A conditional skip (R207). -/
def State.skipIf (s : State) (c : Bool) : State := if c then s.advance else s

/-- The fetch address `fa` of the running instruction: `pc` already holds `fa + 2` modulo 2^16 (R34, R120; log
entry 13). -/
def State.fetchAddr (s : State) : Word := s.pc - 2

/-- The stack is replaced (R35). -/
def State.setStack (s : State) (vs : List Word) : State := { s with stack := vs }

/-- `push(v)` (R35). -/
def State.push (s : State) (v : Word) : State := s.setStack (v :: s.stack)

/-- `pop()` (R35): the top entry and the state without it; none on an empty stack. -/
def State.pop (s : State) : Option (Word × State) :=
  match s.stack with
  | [] => none
  | v :: rest => some (v, s.setStack rest)

/-! ### Faults (60_exceptions.md) -/

/-- `raise`: taking a fault. The only state it saves is its record in `status` (R407); `pc` keeps `fa + 2` and nothing
else changes (R400, R401). There is no return from it (R408). -/
def State.raise (s : State) (record : HaltRecord) : State := { s with status := .halted record }

/-- `status <- st` (R40). -/
def State.setStatus (s : State) (st : Status) : State := { s with status := st }

/-! ### Draws (00_scope.md R15) -/

/-- One draw has been taken. -/
def State.countDraw (s : State) : State := { s with draws := s.draws + 1 }

/-- `draw_u8()` (41_register_alu.md R241): a free byte, and the state with the draw counted (log entry 3). -/
def State.drawByte (s : State) : Byte × State := (Config.randomByte s.draws, s.countDraw)

/-! ### Keys (44_keys_timer.md) -/

/-- Key code `k` is in `keys` (R300). -/
def State.pressed (s : State) (k : Nibble) : Bool := s.keys[k.toNat]

/-- The sixteen key codes (R300). -/
def keyCodes : List Nibble := (List.range 16).map (BitVec.ofNat 4)

/-- The elements of `keys`. -/
def State.pressedKeys (s : State) : List Nibble := keyCodes.filter s.pressed

/-- `k <- any element of keys` (R303, R121): none if no key is pressed, the key itself if one is, and a draw among them
if several are (log entry 4). -/
def State.takeKey (s : State) : Option (Nibble × State) :=
  match s.pressedKeys with
  | [] => none
  | [k] => some (k, s)
  | k :: ks => some ((k :: ks).getD (Config.keyChoice s.draws % (k :: ks).length) k, s.countDraw)

/-! ### The Timer and the Host -/

/-- The Timer's tick: `if dt > 0 then dt <- dt - 1` (44_keys_timer.md R310). -/
def State.tick (s : State) : State := if s.dt = 0 then s else s.setDt (s.dt - 1)

/-- The Host changes the pressed-key set (60_exceptions.md R421). -/
def State.setKeys (s : State) (ks : Keys) : State := { s with keys := ks }

/-- The Host's close (60_exceptions.md R424). -/
def State.close (s : State) : State := { s with closed := true }

/-- The transactions still to come. -/
def State.setSchedule (s : State) (ts : List Transaction) : State := { s with schedule := ts }

/-- Places the two bytes of a word at `pc`, big-endian (20_memory.md R75), and makes the next transaction the Engine's
normal step (R120): status Running, not closed, the Engine next in the schedule. -/
def State.placeWord (s : State) (w : Word) : State :=
  let t := { s.writeMem s.pc.toNat [wordHi w, wordLo w] with status := .running, closed := false }
  match s.schedule with
  | [] => t
  | .engine :: _ => t
  | ts => t.setSchedule (.engine :: ts)

end Sys2Proof.Machine
end

