-- ==== Sys2Proof/Machine/Operands.lean ====
section
/-! DEFINITION. The operand forms: how an instruction turns its fields into the values it works on. -/

namespace Sys2Proof.Machine

/-- A control-transfer target or an index value: `zext_16(nnn)` (30_encoding.md R102, 40_control_flow.md R208). -/
def target (nnn : Addr12) : Word := nnn.setWidth 16

/-- A register as a 16-bit value: `zext_16(V[x])` (42_index_memory.md R251). -/
def State.regWord (s : State) (x : Nibble) : Word := (s.reg x).setWidth 16

/-- The address of byte `k` of the block at `I`: `I + k`, which the access reduces modulo 4096 (R256). -/
def State.blockAddr (s : State) (k : Nat) : Nat := s.I.toNat + k

/-- The `n` bytes at `I`, ascending, as the sprite read takes them (43_display.md R272). -/
def State.readBlock (s : State) (n : Nat) : List Byte :=
  (List.range n).map (fun k => s.readMem (s.blockAddr k))

/-- The registers V0..Vx, ascending (42_index_memory.md R254). -/
def State.regsUpTo (s : State) (x : Nibble) : List Byte :=
  (List.range (x.toNat + 1)).map (fun k => s.reg (BitVec.ofNat 4 k))

/-- The three decimal digits of a byte, most significant first (42_index_memory.md R253). -/
def decimalDigits (v : Byte) : List Byte :=
  [BitVec.ofNat 8 (v.toNat / 100), BitVec.ofNat 8 (v.toNat / 10 % 10), BitVec.ofNat 8 (v.toNat % 10)]

/-- The address of the glyph for the low nibble of a byte: `FONT_BASE + GLYPH_BYTES * (v & 0x0F)`
(42_index_memory.md R252). -/
def glyphAddr (v : Byte) : Word := BitVec.ofNat 16 (fontBase + glyphBytes * (v &&& 0x0F#8).toNat)

/-- The key test of SkipKey and SkipNotKey: `V[x] < 16 and V[x] ∈ keys`. A value of 16 or more names no key
(44_keys_timer.md R307). -/
def State.keyDown (s : State) (v : Byte) : Bool :=
  decide (v.toNat < 16) && s.pressed (v.setWidth 4)

/-- The sprite origin's column: `V[x] mod 64` (43_display.md R271). -/
def State.originCol (s : State) (x : Nibble) : Nat := (s.reg x).toNat % Config.dispW

/-- The sprite origin's row: `V[y] mod 32` (43_display.md R271). -/
def State.originRow (s : State) (y : Nibble) : Nat := (s.reg y).toNat % Config.dispH

end Sys2Proof.Machine
end

