-- ==== Sys2Proof/Machine/ControlFlow.lean ====
section
/-! DEFINITION. Control transfer (40_control_flow.md). At entry `pc = fa + 2` (30_encoding.md R120). -/

namespace Sys2Proof.Machine

/-- What a meaning answers. -/
abbrev Result := Host.Outcome State Fault Refusal

/-- Return (R200): `pc <- pop()`, or on an empty stack StackUnderflow(fa) (60_exceptions.md R401). -/
def execReturn (s : State) : Result :=
  match s.pop with
  | none => .next (s.raise (.stackUnderflow s.fetchAddr))
  | some (v, s') => .next (s'.setPc v)

/-- Jump (R201): `pc <- zext_16(nnn)`. -/
def execJump (nnn : Addr12) (s : State) : Result := .next (s.setPc (target nnn))

/-- Call (R202): `push(pc)`, then `pc <- zext_16(nnn)`. -/
def execCall (nnn : Addr12) (s : State) : Result := .next ((s.push s.pc).setPc (target nnn))

/-- SkipEqual (R203): skip if `V[x] = nn`. -/
def execSkipEqual (x : Nibble) (nn : Byte) (s : State) : Result := .next (s.skipIf (s.reg x == nn))

/-- SkipNotEqual (R204): skip if `V[x] ≠ nn`. -/
def execSkipNotEqual (x : Nibble) (nn : Byte) (s : State) : Result := .next (s.skipIf (s.reg x != nn))

/-- SkipEqualXY (R205): skip if `V[x] = V[y]`. -/
def execSkipEqualXY (x y : Nibble) (s : State) : Result := .next (s.skipIf (s.reg x == s.reg y))

/-- SkipNotEqualXY (R206): skip if `V[x] ≠ V[y]`. -/
def execSkipNotEqualXY (x y : Nibble) (s : State) : Result := .next (s.skipIf (s.reg x != s.reg y))

end Sys2Proof.Machine
end

