-- ==== Sys2Proof/Machine/Cycle.lean ====
section
/-! DEFINITION. The transactions (00_scope.md R9): the engine step (30_encoding.md R120), the resume step (R121), the
Timer's tick and the Host's moves, over any `execute`; Machine/Step.lean gives them this machine's. -/

namespace Sys2Proof.Machine

/-- The engine step (R120): fetch at `pc`, `pc <- pc + 2`, decode, execute. -/
def engineStep (execute : Instr → State → Result) (s : State) : Result :=
  execute (decode (s.fetch16 s.pc)) s.advance

/-- The Engine's turn while `WaitKey(x)` (R121): a pressed key goes to V[x] and the engine runs again; while no key is
pressed a poll changes nothing. It fetches nothing and leaves `pc`. -/
def resumeStep (x : Nibble) (s : State) : Result :=
  match s.takeKey with
  | some (k, s') => .next ((s'.setReg x (k.setWidth 8)).setStatus .running)
  | none => .next s

/-- The Engine's turn. It stops by name once the run has ended (60_exceptions.md R427): in error after a stack underflow,
normally after the Host's close. Halted by an illegal word and not yet closed, the engine only keeps rendering the
unchanged grid (R400, R122; log entry 10). -/
def engineTurn (execute : Instr → State → Result) (s : State) : Result :=
  match s.status with
  | .halted (.stackUnderflow fa) => .fault (.stackUnderflow fa)
  | .halted (.illegalOpcode _ _) => if s.closed then .fault .hostClosed else .next s
  | .waitKey x => if s.closed then .fault .hostClosed else resumeStep x s
  | .running => if s.closed then .fault .hostClosed else engineStep execute s

/-- Whose move is next, and the state with that move taken off the schedule; the Engine's when none is listed (log
entry 1). -/
def State.nextTransaction (s : State) : Transaction × State :=
  match s.schedule with
  | [] => (.engine, s)
  | t :: ts => (t, s.setSchedule ts)

/-- One transaction. -/
def transact (execute : Instr → State → Result) (t : Transaction) (s : State) : Result :=
  match t with
  | .engine => engineTurn execute s
  | .tick => .next s.tick
  | .setKeys ks => .next (s.setKeys ks)
  | .close => .next s.close

end Sys2Proof.Machine
end

