-- ==== Sys2Proof/Machine/Flags.lean ====
section
/-! DEFINITION. Every flag computation. VF is the only flag, and only ShiftRight, ShiftLeft and Draw write it without
naming it (10_state.md R33, 41_register_alu.md R221, R222). -/

namespace Sys2Proof.Machine

/-- The bit a right shift loses: `v & 0x01` (41_register_alu.md R238). -/
def shiftRightFlag (v : Byte) : Byte := v &&& 0x01#8

/-- The bit a left shift loses: `(v >> 7) & 0x01` (41_register_alu.md R240). -/
def shiftLeftFlag (v : Byte) : Byte := (v >>> 7) &&& 0x01#8

/-- The collision flag (43_display.md R280): 1 if any pixel was turned off, else 0. -/
def collisionFlag (hit : Bool) : Byte := if hit then 1#8 else 0#8

/-- `VF <- v`. -/
def State.setFlag (s : State) (v : Byte) : State := s.setReg regVF v

end Sys2Proof.Machine
end

