-- ==== Sys2Proof/Machine/Framebuffer.lean ====
section
/-! DEFINITION. The Display block: the pixel grid, `clear()` and `draw(origin_x, origin_y, sprite_bytes)`
(43_display.md R270-R275). -/

namespace Sys2Proof.Machine

/-- `disp[c][r]` (10_state.md R36); a position outside the grid holds no pixel and reads as off. -/
def Grid.pixel (g : Grid) (c r : Nat) : Bool :=
  if h : c < Config.dispW ∧ r < Config.dispH then (g[r]'h.2)[c]'h.1 else false

/-- `disp[c][r] <- b`; a position outside the grid is dropped (R274). -/
def Grid.setPixel (g : Grid) (c r : Nat) (b : Bool) : Grid :=
  if h : c < Config.dispW ∧ r < Config.dispH then g.set r ((g[r]'h.2).set c b h.1) h.2 else g

/-- `clear()`: every pixel off (R276). -/
def Grid.clear : Grid := Vector.replicate Config.dispH (Vector.replicate Config.dispW false)

/-- One set sprite bit at column `c`, row `r` (R274, R275): an on pixel is turned off and raises the collision, an off
pixel is turned on, a position outside the grid changes nothing and does not collide. The Bool is the collision so far. -/
def Grid.flip (gh : Grid × Bool) (c r : Nat) : Grid × Bool :=
  if c < Config.dispW ∧ r < Config.dispH then
    (Grid.setPixel gh.1 c r (!Grid.pixel gh.1 c r), gh.2 || Grid.pixel gh.1 c r)
  else gh

/-- Bit `b` of a sprite row, 0 the leftmost: the most significant bit first (R273; log entry 15). -/
def spriteBit (row : Byte) (b : Nat) : Bool := row.getLsbD (7 - b)

/-- One row of a sprite at grid row `r`, its bits 0 to 7 in order (R277). -/
def Grid.drawRow (gh : Grid × Bool) (ox r : Nat) (row : Byte) : Grid × Bool :=
  (List.range 8).foldl (fun acc b => if spriteBit row b then Grid.flip acc (ox + b) r else acc) gh

/-- The rows of a sprite from grid row `r` down, in order (R277). -/
def Grid.drawRows : Grid × Bool → Nat → Nat → List Byte → Grid × Bool
  | gh, _, _, [] => gh
  | gh, ox, r, row :: rows => Grid.drawRows (Grid.drawRow gh ox r row) ox (r + 1) rows

/-- `draw(origin_x, origin_y, sprite_bytes)` (R270): the grid after it and whether a pixel was turned off. -/
def Grid.draw (g : Grid) (ox oy : Nat) (sprite : List Byte) : Grid × Bool :=
  Grid.drawRows (g, false) ox oy sprite

end Sys2Proof.Machine
end

