-- ==== Sys2Proof/Machine/Display.lean ====
section
/-! DEFINITION. The two instructions that change the grid (43_display.md). The render that a step emits is
Machine/HostSide.lean's `frames` (R281, R282): it changes no state. -/

namespace Sys2Proof.Machine

/-- ClearScreen (R276): every pixel off; VF unchanged. -/
def execClearScreen (s : State) : Result := .next (s.setDisp Grid.clear)

/-- Draw (R277): the origin from V[x] and V[y], all rows read first, the pixels composited, VF the collision flag (R280:
cleared at the start, raised by a collision, so it ends as the collision). -/
def execDraw (x y n : Nibble) (s : State) : Result :=
  let drawn := s.disp.draw (s.originCol x) (s.originRow y) (s.readBlock n.toNat)
  .next ((s.setDisp drawn.1).setFlag (collisionFlag drawn.2))

end Sys2Proof.Machine
end

