-- ==== Sys2Proof/Machine/Faults.lean ====
section
/-! DEFINITION. The Illegal Operation (60_exceptions.md R400). -/

namespace Sys2Proof.Machine

/-- Illegal(w) (R400): `status <- Halted(IllegalOpcode(fa, w))`; nothing else changes. -/
def execIllegal (w : Word) (s : State) : Result := .next (s.raise (.illegalOpcode s.fetchAddr w))

end Sys2Proof.Machine
end

