-- ==== Sys2Proof/Machine/IndexMemory.lean ====
section
/-! DEFINITION. Index register and memory-block instructions (42_index_memory.md). Byte `k` of a block is at
`(I + k) mod 4096`, and no access modifies `I` (R256). -/

namespace Sys2Proof.Machine

/-- MoveIndex (R250): `I <- zext_16(nnn)`. -/
def execMoveIndex (nnn : Addr12) (s : State) : Result := .next (s.setIndex (target nnn))

/-- AddIndex (R251): `I <- (I + zext_16(V[x])) mod 2^16`; no flag. -/
def execAddIndex (x : Nibble) (s : State) : Result := .next (s.setIndex (s.I + s.regWord x))

/-- FontChar (R252): `I <- FONT_BASE + GLYPH_BYTES * (V[x] & 0x0F)`; memory is not accessed. -/
def execFontChar (x : Nibble) (s : State) : Result := .next (s.setIndex (glyphAddr (s.reg x)))

/-- Decimal (R253): the three decimal digits of `V[x]` at `I`, `I + 1`, `I + 2`, most significant first. -/
def execDecimal (x : Nibble) (s : State) : Result :=
  .next (s.writeMem (s.blockAddr 0) (decimalDigits (s.reg x)))

/-- Store (R254): `V0..Vx` at `I .. I + x`. -/
def execStore (x : Nibble) (s : State) : Result := .next (s.writeMem (s.blockAddr 0) (s.regsUpTo x))

/-- Load (R255): `V0..Vx` from `I .. I + x`. -/
def execLoad (x : Nibble) (s : State) : Result := .next (s.loadRegs 0 (x.toNat + 1))

end Sys2Proof.Machine
end

