-- ==== Sys2Proof/Machine/KeysTimer.lean ====
section
/-! DEFINITION. Keypad, delay-timer and sound-timer instructions (44_keys_timer.md). -/

namespace Sys2Proof.Machine

/-- SkipKey (R301): skip if `V[x] < 16 and V[x] ∈ keys`. -/
def execSkipKey (x : Nibble) (s : State) : Result := .next (s.skipIf (s.keyDown (s.reg x)))

/-- SkipNotKey (R302): skip unless `V[x] < 16 and V[x] ∈ keys`. -/
def execSkipNotKey (x : Nibble) (s : State) : Result := .next (s.skipIf (!s.keyDown (s.reg x)))

/-- GetKey (R303): a pressed key into V[x], or the wait WaitKey(x), which 30_encoding.md R121 resumes. -/
def execGetKey (x : Nibble) (s : State) : Result :=
  match s.takeKey with
  | some (k, s') => .next (s'.setReg x (k.setWidth 8))
  | none => .next (s.setStatus (.waitKey x))

/-- DelayTimerGet (R304): `V[x] <- dt`. -/
def execDelayTimerGet (x : Nibble) (s : State) : Result := .next (s.setReg x s.dt)

/-- DelayTimerSet (R305): `dt <- V[x]`; it replaces a countdown in flight (R312). -/
def execDelayTimerSet (x : Nibble) (s : State) : Result := .next (s.setDt (s.reg x))

/-- SetSoundTimer (R306): "no observable effect"; there is no sound-timer state (10_state.md R38). -/
def execSetSoundTimer (_x : Nibble) (s : State) : Result := .next s

end Sys2Proof.Machine
end

