-- ==== Sys2Proof/Machine/RegisterAlu.lean ====
section
/-! DEFINITION. Register and ALU instructions (41_register_alu.md). All arithmetic wraps modulo 256 (R220); none but the
shifts writes a flag (R222). The statements of each rule run in order (00_scope.md R16, R223). -/

namespace Sys2Proof.Machine

/-- Move (R230): `V[x] <- nn`. -/
def execMove (x : Nibble) (nn : Byte) (s : State) : Result := .next (s.setReg x nn)

/-- Add (R231): `V[x] <- V[x] + nn`. -/
def execAdd (x : Nibble) (nn : Byte) (s : State) : Result := .next (s.setReg x (s.reg x + nn))

/-- MoveXY (R232): `V[x] <- V[y]`. -/
def execMoveXY (x y : Nibble) (s : State) : Result := .next (s.setReg x (s.reg y))

/-- Or (R233): `V[x] <- V[x] | V[y]`. -/
def execOr (x y : Nibble) (s : State) : Result := .next (s.setReg x (s.reg x ||| s.reg y))

/-- And (R234): `V[x] <- V[x] & V[y]`. -/
def execAnd (x y : Nibble) (s : State) : Result := .next (s.setReg x (s.reg x &&& s.reg y))

/-- Xor (R235): `V[x] <- V[x] ^ V[y]`. -/
def execXor (x y : Nibble) (s : State) : Result := .next (s.setReg x (s.reg x ^^^ s.reg y))

/-- AddXY (R236): `V[x] <- V[x] + V[y]`; VF is not a carry (D6; log entry 7). -/
def execAddXY (x y : Nibble) (s : State) : Result := .next (s.setReg x (s.reg x + s.reg y))

/-- SubXY (R237): `V[x] <- V[x] - V[y]`; VF is not a borrow. -/
def execSubXY (x y : Nibble) (s : State) : Result := .next (s.setReg x (s.reg x - s.reg y))

/-- ShiftRight (R238): `V[x] <- V[y]`; `VF <- V[x] & 1`; `V[x] <- V[x] >> 1`. With `x = F` the last statement shifts the
flag just written (D7). -/
def execShiftRight (x y : Nibble) (s : State) : Result :=
  let s1 := s.setReg x (s.reg y)
  let s2 := s1.setFlag (shiftRightFlag (s1.reg x))
  .next (s2.setReg x (s2.reg x >>> 1))

/-- SubYX (R239): `V[x] <- V[y] - V[x]`. -/
def execSubYX (x y : Nibble) (s : State) : Result := .next (s.setReg x (s.reg y - s.reg x))

/-- ShiftLeft (R240): `V[x] <- V[y]`; `VF <- (V[x] >> 7) & 1`; `V[x] <- V[x] << 1`. With `x = F` the last statement
shifts the flag just written (D7). -/
def execShiftLeft (x y : Nibble) (s : State) : Result :=
  let s1 := s.setReg x (s.reg y)
  let s2 := s1.setFlag (shiftLeftFlag (s1.reg x))
  .next (s2.setReg x (s2.reg x <<< 1))

/-- Random (R241): `r <- draw_u8(); V[x] <- r & nn` (log entry 3). -/
def execRandom (x : Nibble) (nn : Byte) (s : State) : Result :=
  .next (s.drawByte.2.setReg x (s.drawByte.1 &&& nn))

end Sys2Proof.Machine
end

