-- ==== Sys2Proof/Machine/Dispatch.lean ====
section
/-! DEFINITION. `execute(Operation)`: an exhaustive match over the 34 variants (30_encoding.md R123). -/

namespace Sys2Proof.Machine

def exec (i : Instr) (s : State) : Host.Outcome State Fault Refusal :=
  match i with
  | .clearScreen => Sys2Proof.Machine.execClearScreen s
  | .return_ => Sys2Proof.Machine.execReturn s
  | .jump nnn => Sys2Proof.Machine.execJump nnn s
  | .call nnn => Sys2Proof.Machine.execCall nnn s
  | .skipEqual x nn => Sys2Proof.Machine.execSkipEqual x nn s
  | .skipNotEqual x nn => Sys2Proof.Machine.execSkipNotEqual x nn s
  | .skipEqualXY x y => Sys2Proof.Machine.execSkipEqualXY x y s
  | .move x nn => Sys2Proof.Machine.execMove x nn s
  | .add x nn => Sys2Proof.Machine.execAdd x nn s
  | .moveXY x y => Sys2Proof.Machine.execMoveXY x y s
  | .or x y => Sys2Proof.Machine.execOr x y s
  | .and x y => Sys2Proof.Machine.execAnd x y s
  | .xor x y => Sys2Proof.Machine.execXor x y s
  | .addXY x y => Sys2Proof.Machine.execAddXY x y s
  | .subXY x y => Sys2Proof.Machine.execSubXY x y s
  | .shiftRight x y => Sys2Proof.Machine.execShiftRight x y s
  | .subYX x y => Sys2Proof.Machine.execSubYX x y s
  | .shiftLeft x y => Sys2Proof.Machine.execShiftLeft x y s
  | .skipNotEqualXY x y => Sys2Proof.Machine.execSkipNotEqualXY x y s
  | .moveIndex nnn => Sys2Proof.Machine.execMoveIndex nnn s
  | .random x nn => Sys2Proof.Machine.execRandom x nn s
  | .draw x y n => Sys2Proof.Machine.execDraw x y n s
  | .skipKey x => Sys2Proof.Machine.execSkipKey x s
  | .skipNotKey x => Sys2Proof.Machine.execSkipNotKey x s
  | .delayTimerGet x => Sys2Proof.Machine.execDelayTimerGet x s
  | .getKey x => Sys2Proof.Machine.execGetKey x s
  | .delayTimerSet x => Sys2Proof.Machine.execDelayTimerSet x s
  | .setSoundTimer x => Sys2Proof.Machine.execSetSoundTimer x s
  | .addIndex x => Sys2Proof.Machine.execAddIndex x s
  | .fontChar x => Sys2Proof.Machine.execFontChar x s
  | .decimal x => Sys2Proof.Machine.execDecimal x s
  | .store x => Sys2Proof.Machine.execStore x s
  | .load x => Sys2Proof.Machine.execLoad x s
  | .illegal w => Sys2Proof.Machine.execIllegal w s

end Sys2Proof.Machine
end

