-- ==== Sys2Proof/Machine/Step.lean ====
section
/-! DEFINITION. One step of the machine: the next transaction (00_scope.md R9). -/

namespace Sys2Proof.Machine

/-- The next transaction of the schedule, taken by this machine. -/
def step (s : State) : Host.Outcome State Fault Refusal :=
  transact exec s.nextTransaction.1 s.nextTransaction.2

/-- `s` with a table word where the next step fetches (log entry 2). -/
def State.withFetchWord (s : State) (nbits w : Nat) : State := s.placeWord (tableWord nbits w)

end Sys2Proof.Machine
end

