-- ==== Sys2Proof/Machine/HostSide.lean ====
section
/-! DEFINITION. The Host's side of the interface (60_exceptions.md R420): the ROM load before the run, the renders a
transaction hands out, and the read-only snapshots. Key state and close are transactions (Machine/Cycle.lean). -/

namespace Sys2Proof.Machine

/-- The ROM load (70_reset_and_hazards.md R451): the bytes verbatim from 0x200, at most 3584 of them; a longer ROM is
refused (D20; log entry 14). It happens once, after reset and before the first step. -/
def load (bytes : List Byte) (s : State) : Result :=
  if bytes.length ≤ Config.maxRom then .next (s.writeMem Config.programStart bytes)
  else .refused (.romTooLong bytes.length)

/-- The machine after reset with the inputs of a run (10_state.md R42): any schedule of ticks, Host moves and Engine turns,
and any place in the draws. A schedule that begins with `setKeys` is a Host that reports keys at reset (R45). -/
def State.start (inputs : Inputs) : State := { State.reset with toInputs := inputs }

/-- The start state of a program (R452): reset, then the load, under the inputs of the run. -/
def boot (bytes : List Byte) (inputs : Inputs) : Result := load bytes (State.start inputs)

/-- `Render(disp)`: a copy of the complete grid (43_display.md R282). -/
def State.render (s : State) : Grid := s.disp

/-- The Engine's turn at `s` runs the instruction this gives: none in a wait, when halted, or when closed. -/
def State.runs (s : State) : Option Instr :=
  match s.status with
  | .running => if s.closed then none else some (decode (s.fetch16 s.pc))
  | _ => none

/-- How many renders an instruction itself emits: Draw one, after all its pixel changes (R277, R281). -/
def drawRenders : Option Instr → Nat
  | some (.draw _ _ _) => 1
  | _ => 0

/-- The renders the next transaction hands to the Host, in order (R282; log entry 11): those of the instruction (R281),
then the one that ends an engine step (30_encoding.md R120), a GetKey poll (44_keys_timer.md R303) or an idle turn after
an illegal word (60_exceptions.md R400). The Timer and the Host emit none. -/
def frames (s : State) : List Grid :=
  match s.nextTransaction.1, step s with
  | .engine, .next t => List.replicate (drawRenders s.runs + 1) t.render
  | _, _ => []

/-- Introspection (10_state.md R47): the next decoded instruction. -/
def State.nextInstr (s : State) : Instr := decode (s.fetch16 s.pc)

/-- Introspection (R47): the full register set, V0 first. -/
def State.registers (s : State) : List Byte := s.V.toList

/-- Introspection (R47): the full memory, from 0x000. -/
def State.memoryDump (s : State) : List Byte := (List.range Config.memSize).map s.readMem

/-- Introspection (R47): the call-stack contents, top first. -/
def State.callStack (s : State) : List Word := s.stack

end Sys2Proof.Machine
end

