-- ==== Sys2Proof/OpcodeTable.lean ====
section
/-! DEFINITION. spec/opcode_table.json as data: a mask and a match per instruction row, and the row each Operation stands
for. Statements hold the decoder against it; nothing of the machine reads it. -/

namespace Sys2Proof

/-- One row of spec/opcode_table.json: a word belongs to the row when `word & mask = pattern`. -/
structure OpcodeRow where
  mnemonic : String
  mask : Word
  pattern : Word
  deriving DecidableEq, Repr

/-- `w` has the row's fixed bits. -/
def OpcodeRow.matches (row : OpcodeRow) (w : Word) : Bool := w &&& row.mask == row.pattern

/-- Rows: ClearScreen to SkipEqualXY. -/
def rowsControl : List OpcodeRow :=
  [⟨"ClearScreen", 0xFFFF#16, 0x00E0#16⟩,
   ⟨"Return", 0xFFFF#16, 0x00EE#16⟩,
   ⟨"Jump", 0xF000#16, 0x1000#16⟩,
   ⟨"Call", 0xF000#16, 0x2000#16⟩,
   ⟨"SkipEqual", 0xF000#16, 0x3000#16⟩,
   ⟨"SkipNotEqual", 0xF000#16, 0x4000#16⟩,
   ⟨"SkipEqualXY", 0xF00F#16, 0x5000#16⟩]

/-- Rows: Move and Add. -/
def rowsImmediate : List OpcodeRow :=
  [⟨"Move", 0xF000#16, 0x6000#16⟩,
   ⟨"Add", 0xF000#16, 0x7000#16⟩]

/-- Rows: family 0x8. -/
def rowsRegister : List OpcodeRow :=
  [⟨"MoveXY", 0xF00F#16, 0x8000#16⟩,
   ⟨"Or", 0xF00F#16, 0x8001#16⟩,
   ⟨"And", 0xF00F#16, 0x8002#16⟩,
   ⟨"Xor", 0xF00F#16, 0x8003#16⟩,
   ⟨"AddXY", 0xF00F#16, 0x8004#16⟩,
   ⟨"SubXY", 0xF00F#16, 0x8005#16⟩,
   ⟨"ShiftRight", 0xF00F#16, 0x8006#16⟩,
   ⟨"SubYX", 0xF00F#16, 0x8007#16⟩,
   ⟨"ShiftLeft", 0xF00F#16, 0x800E#16⟩]

/-- Rows: families 0x9, 0xA, 0xC, 0xD. -/
def rowsMixed : List OpcodeRow :=
  [⟨"SkipNotEqualXY", 0xF00F#16, 0x9000#16⟩,
   ⟨"MoveIndex", 0xF000#16, 0xA000#16⟩,
   ⟨"Random", 0xF000#16, 0xC000#16⟩,
   ⟨"Draw", 0xF000#16, 0xD000#16⟩]

/-- Rows: family 0xE and the key and timer rows of 0xF. -/
def rowsKeysTimer : List OpcodeRow :=
  [⟨"SkipKey", 0xF0FF#16, 0xE09E#16⟩,
   ⟨"SkipNotKey", 0xF0FF#16, 0xE0A1#16⟩,
   ⟨"DelayTimerGet", 0xF0FF#16, 0xF007#16⟩,
   ⟨"GetKey", 0xF0FF#16, 0xF00A#16⟩,
   ⟨"DelayTimerSet", 0xF0FF#16, 0xF015#16⟩,
   ⟨"SetSoundTimer", 0xF0FF#16, 0xF018#16⟩]

/-- Rows: the index and memory rows of 0xF. -/
def rowsIndexMemory : List OpcodeRow :=
  [⟨"AddIndex", 0xF0FF#16, 0xF01E#16⟩,
   ⟨"FontChar", 0xF0FF#16, 0xF029#16⟩,
   ⟨"Decimal", 0xF0FF#16, 0xF033#16⟩,
   ⟨"Store", 0xF0FF#16, 0xF055#16⟩,
   ⟨"Load", 0xF0FF#16, 0xF065#16⟩]

/-- The 33 instruction rows of spec/opcode_table.json, in its order (the fallback row Illegal is what no row matches). -/
def opcodeRows : List OpcodeRow :=
  rowsControl ++ rowsImmediate ++ rowsRegister ++ rowsMixed ++ rowsKeysTimer ++ rowsIndexMemory

/-- The row an Operation stands for (30_encoding.md R115: "one variant per table row"). -/
def Instr.mnemonic : Instr → String
  | .clearScreen => "ClearScreen"
  | .return_ => "Return"
  | .jump _ => "Jump"
  | .call _ => "Call"
  | .skipEqual _ _ => "SkipEqual"
  | .skipNotEqual _ _ => "SkipNotEqual"
  | .skipEqualXY _ _ => "SkipEqualXY"
  | .move _ _ => "Move"
  | .add _ _ => "Add"
  | .moveXY _ _ => "MoveXY"
  | .or _ _ => "Or"
  | .and _ _ => "And"
  | .xor _ _ => "Xor"
  | .addXY _ _ => "AddXY"
  | .subXY _ _ => "SubXY"
  | .shiftRight _ _ => "ShiftRight"
  | .subYX _ _ => "SubYX"
  | .shiftLeft _ _ => "ShiftLeft"
  | .skipNotEqualXY _ _ => "SkipNotEqualXY"
  | .moveIndex _ => "MoveIndex"
  | .random _ _ => "Random"
  | .draw _ _ _ => "Draw"
  | .skipKey _ => "SkipKey"
  | .skipNotKey _ => "SkipNotKey"
  | .delayTimerGet _ => "DelayTimerGet"
  | .getKey _ => "GetKey"
  | .delayTimerSet _ => "DelayTimerSet"
  | .setSoundTimer _ => "SetSoundTimer"
  | .addIndex _ => "AddIndex"
  | .fontChar _ => "FontChar"
  | .decimal _ => "Decimal"
  | .store _ => "Store"
  | .load _ => "Load"
  | .illegal _ => "Illegal"

end Sys2Proof
end

