-- ==== Sys2Proof/Safety.lean ====
section
/-! DEFINITION. The terms claims are stated in: what an instruction leaves unchanged, that it completes, which fields and
registers its rule writes, what a sprite covers, and the invariant of the machine. -/

namespace Sys2Proof.Machine

/-! ### Frames -/

/-- The fields of the state record (10_state.md R31), and the two inputs beside it (R42). -/
inductive Field where
  | mem | V | I | pc | stack | disp | dt | status | keys | closed | schedule | draws
  deriving DecidableEq, Repr

/-- `t` has the field of `s`: memory read byte by byte, the registers read one by one. -/
def Field.same (s t : State) : Field → Prop
  | .mem => ∀ a, t.readMem a = s.readMem a
  | .V => ∀ j, t.reg j = s.reg j
  | .I => t.I = s.I
  | .pc => t.pc = s.pc
  | .stack => t.stack = s.stack
  | .disp => t.disp = s.disp
  | .dt => t.dt = s.dt
  | .status => t.status = s.status
  | .keys => t.keys = s.keys
  | .closed => t.closed = s.closed
  | .schedule => t.schedule = s.schedule
  | .draws => t.draws = s.draws

/-- `t` agrees with `s` on every field but those listed. -/
def AgreeExcept (changed : List Field) (s t : State) : Prop := ∀ f, f ∉ changed → f.same s t

/-- Every register but `x` is unchanged. -/
def RegsExcept (x : Nibble) (s t : State) : Prop := ∀ j, j ≠ x → t.reg j = s.reg j

/-! ### Completion -/

/-- The instruction answers a next state, and that state satisfies `post`. -/
def Completes (i : Instr) (s : State) (post : State → Prop) : Prop := ∃ t, exec i s = .next t ∧ post t

/-- The instruction completes with `v` in V[x], every other register (VF among them) and every other field unchanged. -/
def SetsReg (i : Instr) (s : State) (x : Nibble) (v : Byte) : Prop :=
  Completes i s fun t => t.reg x = v ∧ RegsExcept x s t ∧ AgreeExcept [.V] s t

/-- The instruction completes with `pc = v` and everything else unchanged. -/
def SetsPc (i : Instr) (s : State) (v : Word) : Prop := Completes i s fun t => t.pc = v ∧ AgreeExcept [.pc] s t

/-- The instruction completes with `I = v` and everything else unchanged. -/
def SetsIndex (i : Instr) (s : State) (v : Word) : Prop := Completes i s fun t => t.I = v ∧ AgreeExcept [.I] s t

/-! ### Whose turn it is -/

/-- The Engine moves next, and `rest` is the schedule after its move. It moves too when nothing is listed (log
entry 1). -/
def EngineNext (s : State) (rest : List Transaction) : Prop :=
  s.schedule = .engine :: rest ∨ (s.schedule = [] ∧ rest = [])

/-! ### What the rules let an instruction write -/

/-- The fields of State that an Operation's rule writes (10_state.md R31 to R37, 20_memory.md R74, 30_encoding.md
R123); GetKey's and Random's draw is counted in the input `draws`. -/
def fieldsWritten : Instr → List Field
  | .clearScreen => [.disp]
  | .return_ => [.pc, .stack, .status]
  | .jump _ => [.pc]
  | .call _ => [.pc, .stack]
  | .skipEqual _ _ => [.pc]
  | .skipNotEqual _ _ => [.pc]
  | .skipEqualXY _ _ => [.pc]
  | .skipNotEqualXY _ _ => [.pc]
  | .skipKey _ => [.pc]
  | .skipNotKey _ => [.pc]
  | .move _ _ => [.V]
  | .add _ _ => [.V]
  | .moveXY _ _ => [.V]
  | .or _ _ => [.V]
  | .and _ _ => [.V]
  | .xor _ _ => [.V]
  | .addXY _ _ => [.V]
  | .subXY _ _ => [.V]
  | .subYX _ _ => [.V]
  | .shiftRight _ _ => [.V]
  | .shiftLeft _ _ => [.V]
  | .random _ _ => [.V, .draws]
  | .moveIndex _ => [.I]
  | .addIndex _ => [.I]
  | .fontChar _ => [.I]
  | .draw _ _ _ => [.disp, .V]
  | .getKey _ => [.V, .status, .draws]
  | .delayTimerGet _ => [.V]
  | .delayTimerSet _ => [.dt]
  | .setSoundTimer _ => []
  | .decimal _ => [.mem]
  | .store _ => [.mem]
  | .load _ => [.V]
  | .illegal _ => [.status]

/-- Whether an Operation's rule lets it write V[j]: its named destination, and VF for the three instructions that write
it as a flag (10_state.md R33). -/
def regWritten (j : Nibble) : Instr → Bool
  | .move x _ | .add x _ | .moveXY x _ | .or x _ | .and x _ | .xor x _ | .addXY x _ | .subXY x _ | .subYX x _
  | .random x _ | .getKey x | .delayTimerGet x => j == x
  | .shiftRight x _ | .shiftLeft x _ => j == x || j == 0xF#4
  | .draw _ _ _ => j == 0xF#4
  | .load x => decide (j.toNat ≤ x.toNat)
  | .clearScreen | .return_ | .jump _ | .call _ | .skipEqual _ _ | .skipNotEqual _ _ | .skipEqualXY _ _
  | .skipNotEqualXY _ _ | .moveIndex _ | .skipKey _ | .skipNotKey _ | .delayTimerSet _ | .setSoundTimer _
  | .addIndex _ | .fontChar _ | .decimal _ | .store _ | .illegal _ => false

/-! ### Sprites -/

/-- The sprite of `Draw x y n` at `s` has a set bit for the pixel (c, r): bit b of row k, the most significant bit first,
is for column `V[x] mod 64 + b` and row `V[y] mod 32 + k` (43_display.md R271 to R273). -/
def SpriteSets (s : State) (x y n : Nibble) (c r : Nat) : Prop :=
  ∃ k b, k < n.toNat ∧ b < 8 ∧ c = (s.reg x).toNat % 64 + b ∧ r = (s.reg y).toNat % 32 + k ∧
    (s.readMem (s.I.toNat + k)).getLsbD (7 - b) = true

/-! ### The invariant -/

/-- The record of a halt tells the truth: the word really is illegal, or the stack really is empty, and `pc` is two past
the recorded fetch address (60_exceptions.md R400, R401, R407). -/
def HaltRecordTrue (s : State) : Prop :=
  match s.status with
  | .halted (.illegalOpcode fa w) => illegalWord w = true ∧ s.pc = fa + 2
  | .halted (.stackUnderflow fa) => s.stack = [] ∧ s.pc = fa + 2
  | _ => True

/-- The machine's invariant: memory is in its canonical form, and a halt's record is true. -/
def State.Inv (s : State) : Prop := s.mem.wf ∧ HaltRecordTrue s

/-- A safe state: the engine is not halted (70_reset_and_hazards.md R461). -/
def State.safe (s : State) : Prop := ∀ record, s.status ≠ .halted record

end Sys2Proof.Machine
end

