-- ==== Sys2Proof/Certificates/Slice0/Obligations.lean ====
section
/-! DEFINITION. The statements for the provers, from the numbered rules of spec/. -/

open Sys2Proof Sys2Proof.Machine

/-! ### Decoding -/

/-- Sample words of 95_test_vectors.md 2.1, at least one of every family, decode as that table says. -/
def Obligations.DecodesSampleWords : Prop :=
  [0x00E0, 0x00EE, 0x1ABC, 0x2300, 0x3A12, 0x4A12, 0x5120, 0x6A02, 0x7FFF, 0x8124, 0x812E, 0x9120].map decode =
    [.clearScreen, .return_, .jump 0xABC, .call 0x300, .skipEqual 0xA 0x12, .skipNotEqual 0xA 0x12, .skipEqualXY 1 2,
      .move 0xA 0x02, .add 0xF 0xFF, .addXY 1 2, .shiftLeft 1 2, .skipNotEqualXY 1 2] ∧
  [0xA300, 0xC00F, 0xD015, 0xE19E, 0xE1A1, 0xF033, 0xF055, 0x0123, 0x5121, 0x8128, 0xB123, 0xE19F, 0xF075].map decode =
    [.moveIndex 0x300, .random 0 0x0F, .draw 0 1 5, .skipKey 1, .skipNotKey 1, .decimal 0, .store 0, .illegal 0x0123,
      .illegal 0x5121, .illegal 0x8128, .illegal 0xB123, .illegal 0xE19F, .illegal 0xF075]

/-- `decode(encode(op)) = op` for every well-formed `op`, Illegal included (30_encoding.md section 2). -/
def Obligations.DecodeInvertsEncode : Prop :=
  ∀ i : Instr, i.wf = true → decode (encode i) = i

/-- Every word is the encoding of what it decodes to, and that is well formed (30_encoding.md section 2). -/
def Obligations.EncodeInvertsDecode : Prop :=
  ∀ w : Word, encode (decode w) = w ∧ (decode w).wf = true

/-- The decoder against spec/opcode_table.json: a word that has a row's fixed bits decodes to that row's instruction, and
a word of no row is Illegal. -/
def Obligations.DecodeFollowsOpcodeTable : Prop :=
  ∀ w : Word,
    (∀ row ∈ opcodeRows, row.matches w = true → (decode w).mnemonic = row.mnemonic) ∧
    ((∀ row ∈ opcodeRows, row.matches w = false) → decode w = .illegal w)

/-- The illegal space is exactly the list of 30_encoding.md section 2 (`illegalWord`). -/
def Obligations.IllegalWordsAreTheListedOnes : Prop :=
  ∀ w : Word, decode w = .illegal w ↔ illegalWord w = true

/-! ### Fetch, step, reset, load -/

/-- A running, open engine whose turn it is: the step is `exec` of the decoded instruction at the state with `pc` advanced
by 2 and the turn taken off the schedule. The word is the byte at `pc` high and the byte at `pc + 1` low. -/
def Obligations.StepRunsTheDecodedInstruction : Prop :=
  ∀ (s : State) (rest : List Transaction) (w : Word) (i : Instr),
    EngineNext s rest → s.status = .running → s.closed = false →
    w.toNat = (s.readMem s.pc.toNat).toNat * 256 + (s.readMem (s.pc.toNat + 1)).toNat →
    decode w = i → i.wf = true →
    step s = exec i { s with pc := s.pc + 2, schedule := rest }

/-- Addresses are reduced modulo 4096 (the spec's decision D2): a read depends on the address modulo 4096 only, and the
fetch of a word at 0xFFF takes its low byte from 0x000. -/
def Obligations.AddressesWrapModulo4096 : Prop :=
  ∀ (s : State),
    (∀ a, s.readMem (a + 4096) = s.readMem a) ∧
    (∀ a b : Word, a.toNat % 4096 = b.toNat % 4096 → s.fetch16 a = s.fetch16 b) ∧
    (∀ a : Word, a.toNat % 4096 = 0xFFF →
      (s.fetch16 a).toNat = (s.readMem 0xFFF).toNat * 256 + (s.readMem 0).toNat)

/-- What a Store or a Decimal writes, the next fetch sees (20_memory.md section 5): no fence, no delay. Every stored byte,
as the high byte of the word fetched from its address and as the low byte of the word fetched from the address below it,
and every word of two stored bytes. Addresses are modulo 4096 (the spec's decision D2; log entry 7). -/
def Obligations.FetchSeesStores : Prop :=
  ∀ (s : State) (x : Nibble),
    (Completes (.store x) s fun t => ∀ (k : Nibble) (a : Word), k.toNat ≤ x.toNat →
      (a.toNat % 4096 = (s.I.toNat + k.toNat) % 4096 → (t.fetch16 a).toNat / 256 = (s.reg k).toNat) ∧
      ((a.toNat + 1) % 4096 = (s.I.toNat + k.toNat) % 4096 → (t.fetch16 a).toNat % 256 = (s.reg k).toNat) ∧
      (∀ j : Nibble, j.toNat = k.toNat + 1 → j.toNat ≤ x.toNat → a.toNat % 4096 = (s.I.toNat + k.toNat) % 4096 →
        (t.fetch16 a).toNat = (s.reg k).toNat * 256 + (s.reg j).toNat)) ∧
    (Completes (.decimal x) s fun t => ∀ a : Word,
      ((a.toNat + 1) % 4096 = s.I.toNat % 4096 → (t.fetch16 a).toNat % 256 = (s.reg x).toNat / 100) ∧
      (a.toNat % 4096 = s.I.toNat % 4096 →
        (t.fetch16 a).toNat = (s.reg x).toNat / 100 * 256 + (s.reg x).toNat / 10 % 10) ∧
      (a.toNat % 4096 = (s.I.toNat + 1) % 4096 →
        (t.fetch16 a).toNat = (s.reg x).toNat / 10 % 10 * 256 + (s.reg x).toNat % 10) ∧
      (a.toNat % 4096 = (s.I.toNat + 2) % 4096 → (t.fetch16 a).toNat / 256 = (s.reg x).toNat % 10))

/-- Reset leaves the values of 10_state.md section 13: memory the font (by name: the spec's decision D12, log entry 8) and
else zero, registers, I, stack, display and dt clear, pc 0x200, status Running, not closed; and the same record under
whatever inputs a run has. Nothing is said of keys (log entry 6). -/
def Obligations.ResetLeavesTheListedValues : Prop :=
  (∀ a, a < 4096 → State.reset.readMem a =
    if fontPresent = true ∧ fontBase ≤ a ∧ a < fontBase + 16 * glyphBytes then fontData.getD (a - fontBase) 0 else 0) ∧
  (∀ j, State.reset.reg j = 0) ∧ State.reset.I = 0 ∧ State.reset.pc = 0x0200 ∧ State.reset.stack = [] ∧
  (∀ c r, State.reset.disp.pixel c r = false) ∧ State.reset.dt = 0 ∧ State.reset.status = .running ∧
  State.reset.closed = false ∧ ∀ inputs, (State.start inputs).toRecord = State.reset.toRecord

/-- The ROM load: the bytes verbatim from 0x200, every other byte and field unchanged; more than 3584 bytes are refused
(the spec's decision D20). -/
def Obligations.RomLoadPlacesTheBytes : Prop :=
  ∀ (s : State) (rom : List Byte),
    (rom.length ≤ 3584 → ∃ t, load rom s = .next t ∧
      (∀ k (h : k < rom.length), t.readMem (0x200 + k) = rom[k]) ∧
      (∀ a, a < 4096 → a < 0x200 ∨ 0x200 + rom.length ≤ a → t.readMem a = s.readMem a) ∧ AgreeExcept [.mem] s t) ∧
    (3584 < rom.length → load rom s = .refused (.romTooLong rom.length))

/-- From reset and a ROM of at least two bytes, under any inputs that let the Engine move first (one of them is the empty
schedule of State.reset, where it moves by log entry 1), the first step runs the instruction of the ROM's first two bytes,
big-endian. How a program comes to run is log entry 2. -/
def Obligations.FirstStepRunsTheRomsFirstWord : Prop :=
  ∀ (hi lo : Byte) (rest : List Byte) (inputs : Inputs) (later : List Transaction), rest.length ≤ 3582 →
    EngineNext (State.start inputs) later →
    ∃ t w, boot (hi :: lo :: rest) inputs = .next t ∧ w.toNat = hi.toNat * 256 + lo.toNat ∧
      step t = exec (decode w) { t with pc := 0x0202, schedule := later }

/-! ### The Timer and the Host -/

/-- The Timer's tick: dt goes down by one and holds at zero; nothing else changes but the schedule. That a tick listed at
dt = 0, which the spec calls not enabled, is taken and changes nothing is log entry 10. -/
def Obligations.TickDecrementsAndHoldsAtZero : Prop :=
  ∀ (s : State) (rest : List Transaction), s.schedule = .tick :: rest →
    ∃ t, step s = .next t ∧ t.dt.toNat = (if s.dt.toNat = 0 then 0 else s.dt.toNat - 1) ∧ t.schedule = rest ∧
      AgreeExcept [.dt, .schedule] s t

/-- After as many ticks as dt says, or more, dt is 0. That the ticks past dt = 0, which the spec calls not enabled, are
taken and change nothing is log entry 10. -/
def Obligations.EnoughTicksBringDtToZero : Prop :=
  ∀ (s : State) (n : Nat) (rest : List Transaction), s.dt.toNat ≤ n →
    s.schedule = List.replicate n .tick ++ rest →
    ∃ t, Host.Core.run Sys2Proof.core n s = .next t ∧ t.dt = 0 ∧ t.schedule = rest ∧
      AgreeExcept [.dt, .schedule] s t

/-- The Host's moves: a new pressed-key set, and the close; each changes its own field only. -/
def Obligations.HostMovesChangeTheirOwnField : Prop :=
  ∀ (s : State) (rest : List Transaction),
    (∀ ks, s.schedule = .setKeys ks :: rest →
      ∃ t, step s = .next t ∧ t.keys = ks ∧ t.schedule = rest ∧ AgreeExcept [.keys, .schedule] s t) ∧
    (s.schedule = .close :: rest →
      ∃ t, step s = .next t ∧ t.closed = true ∧ t.schedule = rest ∧ AgreeExcept [.closed, .schedule] s t)

/-- Ownership, agent by agent: a tick writes dt alone, a key change keys alone, a close closed alone, and the Engine's turn
leaves keys and closed; each takes its own turn off the schedule. -/
def Obligations.AgentsWriteOnlyTheirOwnState : Prop :=
  ∀ (s t : State) (rest : List Transaction), step s = .next t →
    (s.schedule = .tick :: rest → AgreeExcept [.dt, .schedule] s t ∧ t.schedule = rest) ∧
    (∀ ks, s.schedule = .setKeys ks :: rest → AgreeExcept [.keys, .schedule] s t ∧ t.schedule = rest) ∧
    (s.schedule = .close :: rest → AgreeExcept [.closed, .schedule] s t ∧ t.schedule = rest) ∧
    (EngineNext s rest →
      AgreeExcept [.mem, .V, .I, .pc, .stack, .disp, .dt, .status, .draws, .schedule] s t ∧ t.schedule = rest)

/-! ### Status -/

/-- A halted engine never resumes: its record stays and no step changes what the Engine owns, or any register; and the
idle turn of an engine halted by an illegal word (log entry 10) changes nothing at all but the schedule. -/
def Obligations.HaltedIsFinal : Prop :=
  ∀ (s t : State) (record : HaltRecord), s.status = .halted record → step s = .next t →
    t.status = .halted record ∧ AgreeExcept [.dt, .keys, .closed, .schedule] s t ∧
      ∀ rest, EngineNext s rest → AgreeExcept [.schedule] s t

/-- Once closed, no step changes what the Engine owns, and the state stays closed. -/
def Obligations.ClosedIsFinal : Prop :=
  ∀ (s t : State), s.closed = true → step s = .next t →
    t.closed = true ∧ AgreeExcept [.dt, .keys, .schedule] s t

/-- A step stops exactly when the run has ended (60_exceptions.md section 5; log entry 10): at the Engine's turn after a
stack underflow, with that error, and otherwise at the Engine's turn after the close. It never refuses. -/
def Obligations.StepStopsExactlyWhenTheRunHasEnded : Prop :=
  ∀ (s : State),
    (∀ fa, step s = .fault (.stackUnderflow fa) ↔
      (∃ rest, EngineNext s rest) ∧ s.status = .halted (.stackUnderflow fa)) ∧
    (step s = .fault .hostClosed ↔
      (∃ rest, EngineNext s rest) ∧ s.closed = true ∧ ∀ fa, s.status ≠ .halted (.stackUnderflow fa)) ∧
    (∀ why, step s ≠ .refused why)

/-- While it waits for a key and none is pressed, the Engine's turn changes nothing. That there is such a turn, the idle
poll, is log entry 10: the spec gives the hold no step. -/
def Obligations.WaitHoldsWhileNoKeyIsPressed : Prop :=
  ∀ (s : State) (rest : List Transaction) (x : Nibble), EngineNext s rest → s.status = .waitKey x →
    s.closed = false → (∀ k, s.pressed k = false) →
    ∃ t, step s = .next t ∧ AgreeExcept [.schedule] s t

/-- A wait resumes when a key is pressed: V[x] receives a pressed key code, the engine runs again, pc and all else stay. -/
def Obligations.WaitResumesWithAPressedKey : Prop :=
  ∀ (s : State) (rest : List Transaction) (x j : Nibble), EngineNext s rest → s.status = .waitKey x →
    s.closed = false → s.pressed j = true →
    ∃ t k, step s = .next t ∧ s.pressed k = true ∧ (t.reg x).toNat = k.toNat ∧ t.status = .running ∧
      RegsExcept x s t ∧ AgreeExcept [.V, .status, .schedule, .draws] s t

/-! ### All instructions -/

/-- Every instruction completes in every state; and one that starts unhalted ends halted only if it is Illegal or a
Return on an empty stack ("No other condition faults"). -/
def Obligations.OnlyTwoConditionsFault : Prop :=
  ∀ (i : Instr) (s : State), Completes i s fun t =>
    ∀ record, t.status = .halted record → s.status = .halted record ∨ (∃ w, i = .illegal w) ∨
      (i = .return_ ∧ s.stack = [])

/-- Each instruction writes only the fields of State its rule names (`fieldsWritten`). -/
def Obligations.InstructionsWriteOnlyTheirFields : Prop :=
  ∀ (i : Instr) (s t : State), exec i s = .next t → AgreeExcept (fieldsWritten i) s t

/-- Each instruction writes only the registers its rule names (`regWritten`): its destination, and VF for ShiftRight,
ShiftLeft and Draw alone. -/
def Obligations.InstructionsWriteOnlyTheirRegisters : Prop :=
  ∀ (i : Instr) (s t : State), exec i s = .next t → ∀ j, regWritten j i = false → t.reg j = s.reg j

/-- A step that changes the display is the Engine's, and the instruction it runs is ClearScreen or Draw. -/
def Obligations.OnlyClearScreenAndDrawChangeTheDisplay : Prop :=
  ∀ (s t : State), step s = .next t → t.disp ≠ s.disp →
    (∃ rest, EngineNext s rest) ∧ (s.runs = some .clearScreen ∨ ∃ x y n, s.runs = some (.draw x y n))

/-- No instruction but Draw depends on the display: from a state with another grid it does the same to all else. -/
def Obligations.OnlyDrawReadsTheDisplay : Prop :=
  ∀ (i : Instr) (s : State) (g : Grid), (∀ x y n, i ≠ .draw x y n) →
    Completes i s fun t => Completes i { s with disp := g } fun u => AgreeExcept [.disp] t u

/-- The free draws reach only Random and GetKey: any other instruction does the same whatever the count of draws (log
entries 3 to 5). -/
def Obligations.DrawsReachOnlyRandomAndGetKey : Prop :=
  ∀ (i : Instr) (s : State) (n : Nat), (∀ x nn, i ≠ .random x nn) → (∀ x, i ≠ .getKey x) →
    Completes i s fun t => Completes i { s with draws := n } fun u => AgreeExcept [.draws] t u

/-- Accesses through I depend on I modulo 4096 only (the spec's decisions D2 and D5). -/
def Obligations.BlockAccessesUseIModulo4096 : Prop :=
  ∀ (i : Instr) (s : State) (v : Word), (∃ x y n, i = .draw x y n) ∨ (∃ x, i = .decimal x ∨ i = .store x ∨ i = .load x) →
    v.toNat % 4096 = s.I.toNat % 4096 →
    Completes i s fun t => Completes i { s with I := v } fun u => AgreeExcept [.I] t u ∧ u.I = v

/-! ### Control transfer -/

/-- Jump (R201). -/
def Obligations.JumpSetsPc : Prop :=
  ∀ (s : State) (nnn : Addr12), decode (encodeNNN 0x1#4 nnn) = .jump nnn ∧
    SetsPc (.jump nnn) s (nnn.setWidth 16)

/-- Call: the address after the Call is pushed, pc is the target. -/
def Obligations.CallPushesTheNextAddress : Prop :=
  ∀ (s : State) (nnn : Addr12), decode (encodeNNN 0x2#4 nnn) = .call nnn ∧
    Completes (.call nnn) s fun t => t.stack = s.pc :: s.stack ∧ t.pc = nnn.setWidth 16 ∧ AgreeExcept [.pc, .stack] s t

/-- Return on a stack that is not empty: pc is the top entry, which is removed. -/
def Obligations.ReturnPopsIntoPc : Prop :=
  ∀ (s : State) (v : Word) (rest : List Word), s.stack = v :: rest →
    Completes .return_ s fun t => t.pc = v ∧ t.stack = rest ∧ AgreeExcept [.pc, .stack] s t

/-- Return on an empty stack: the StackUnderflow record with the Return's own address, nothing else changed. -/
def Obligations.ReturnOnEmptyStackHalts : Prop :=
  ∀ (s : State) (fa : Word), s.stack = [] → s.pc = fa + 2 →
    Completes .return_ s fun t => t.status = .halted (.stackUnderflow fa) ∧ AgreeExcept [.status] s t

/-- A Call and then a Return, from any address, restore the pc after the Call and the stack. -/
def Obligations.CallThenReturnRestores : Prop :=
  ∀ (s : State) (nnn : Addr12) (p : Word),
    Completes (.call nnn) s fun t => Completes .return_ { t with pc := p } fun u => AgreeExcept [] s u

/-- The four skips (R203 to R206): pc + 2 if the test holds, else pc; nothing else changes. -/
def Obligations.SkipsAddTwoWhenTheTestHolds : Prop :=
  ∀ (s : State) (x y : Nibble) (nn : Byte),
    (decode (encodeXNN 0x3#4 x nn) = .skipEqual x nn ∧
      SetsPc (.skipEqual x nn) s (if s.reg x = nn then s.pc + 2 else s.pc)) ∧
    (decode (encodeXNN 0x4#4 x nn) = .skipNotEqual x nn ∧
      SetsPc (.skipNotEqual x nn) s (if s.reg x ≠ nn then s.pc + 2 else s.pc)) ∧
    (decode (encodeXYN 0x5#4 x y 0x0#4) = .skipEqualXY x y ∧
      SetsPc (.skipEqualXY x y) s (if s.reg x = s.reg y then s.pc + 2 else s.pc)) ∧
    (decode (encodeXYN 0x9#4 x y 0x0#4) = .skipNotEqualXY x y ∧
      SetsPc (.skipNotEqualXY x y) s (if s.reg x ≠ s.reg y then s.pc + 2 else s.pc)) ∧
    (∀ n, n ≠ 0x0#4 → decode (encodeXYN 0x5#4 x y n) = .illegal (encodeXYN 0x5#4 x y n) ∧
      decode (encodeXYN 0x9#4 x y n) = .illegal (encodeXYN 0x9#4 x y n))

/-! ### Registers and arithmetic -/

/-- Move and Add (R230, R231): the immediate, and the sum modulo 256 with no flag. -/
def Obligations.MoveAndAddImmediate : Prop :=
  ∀ (s : State) (x : Nibble) (nn : Byte),
    (decode (encodeXNN 0x6#4 x nn) = .move x nn ∧ SetsReg (.move x nn) s x nn) ∧
    (decode (encodeXNN 0x7#4 x nn) = .add x nn ∧
      SetsReg (.add x nn) s x (BitVec.ofNat 8 (((s.reg x).toNat + nn.toNat) % 256)))

/-- MoveXY, Or, And, Xor (R232 to R235), bit by bit, with no flag. -/
def Obligations.MoveOrAndXorOfRegisters : Prop :=
  ∀ (s : State) (x y : Nibble),
    (decode (encodeXYN 0x8#4 x y 0x0#4) = .moveXY x y ∧ SetsReg (.moveXY x y) s x (s.reg y)) ∧
    (decode (encodeXYN 0x8#4 x y 0x1#4) = .or x y ∧
      ∃ v, SetsReg (.or x y) s x v ∧ ∀ b, v.getLsbD b = ((s.reg x).getLsbD b || (s.reg y).getLsbD b)) ∧
    (decode (encodeXYN 0x8#4 x y 0x2#4) = .and x y ∧
      ∃ v, SetsReg (.and x y) s x v ∧ ∀ b, v.getLsbD b = ((s.reg x).getLsbD b && (s.reg y).getLsbD b)) ∧
    (decode (encodeXYN 0x8#4 x y 0x3#4) = .xor x y ∧
      ∃ v, SetsReg (.xor x y) s x v ∧ ∀ b, v.getLsbD b = ((s.reg x).getLsbD b ^^ (s.reg y).getLsbD b))

/-- SubXY and SubYX (R237, R239): the difference modulo 256, with no borrow flag. -/
def Obligations.SubtractionsWrap : Prop :=
  ∀ (s : State) (x y : Nibble),
    (decode (encodeXYN 0x8#4 x y 0x5#4) = .subXY x y ∧
      SetsReg (.subXY x y) s x (BitVec.ofNat 8 ((256 + (s.reg x).toNat - (s.reg y).toNat) % 256))) ∧
    (decode (encodeXYN 0x8#4 x y 0x7#4) = .subYX x y ∧
      SetsReg (.subYX x y) s x (BitVec.ofNat 8 ((256 + (s.reg y).toNat - (s.reg x).toNat) % 256)))

/-- AddXY: the sum modulo 256; VF is no carry (the spec's decision D6, log entry 7). -/
def Obligations.AddXYWrapsWithoutCarry : Prop :=
  ∀ (s : State) (x y : Nibble), decode (encodeXYN 0x8#4 x y 0x4#4) = .addXY x y ∧
    SetsReg (.addXY x y) s x (BitVec.ofNat 8 (((s.reg x).toNat + (s.reg y).toNat) % 256))

/-- ShiftRight: V[y] halved into V[x], its low bit into VF; with x = F the flag is shifted too, so VF = 0 (the spec's
decision D7, log entry 7). -/
def Obligations.ShiftRightMovesTheLowBitToVF : Prop :=
  ∀ (s : State) (x y : Nibble), decode (encodeXYN 0x8#4 x y 0x6#4) = .shiftRight x y ∧
    Completes (.shiftRight x y) s fun t =>
      (x ≠ 0xF#4 → (t.reg x).toNat = (s.reg y).toNat / 2 ∧ (t.reg 0xF#4).toNat = (s.reg y).toNat % 2) ∧
      (x = 0xF#4 → t.reg 0xF#4 = 0) ∧
      (∀ j, j ≠ x → j ≠ 0xF#4 → t.reg j = s.reg j) ∧ AgreeExcept [.V] s t

/-- ShiftLeft: V[y] doubled modulo 256 into V[x], its high bit into VF; with x = F the flag is shifted too, so VF is 2 or
0 (the spec's decision D7, log entry 7). -/
def Obligations.ShiftLeftMovesTheHighBitToVF : Prop :=
  ∀ (s : State) (x y : Nibble), decode (encodeXYN 0x8#4 x y 0xE#4) = .shiftLeft x y ∧
    Completes (.shiftLeft x y) s fun t =>
      (x ≠ 0xF#4 → (t.reg x).toNat = (s.reg y).toNat * 2 % 256 ∧ (t.reg 0xF#4).toNat = (s.reg y).toNat / 128) ∧
      (x = 0xF#4 → (t.reg 0xF#4).toNat = 2 * ((s.reg y).toNat / 128)) ∧
      (∀ j, j ≠ x → j ≠ 0xF#4 → t.reg j = s.reg j) ∧ AgreeExcept [.V] s t

/-- Random: V[x] is the free byte of the next draw, masked by nn; no bit clear in nn is set; the draw is counted (the
free value of log entry 3). -/
def Obligations.RandomMasksAFreeByte : Prop :=
  ∀ (s : State) (x : Nibble) (nn : Byte), decode (encodeXNN 0xC#4 x nn) = .random x nn ∧
    Completes (.random x nn) s fun t =>
      (∀ b, (t.reg x).getLsbD b = ((Config.randomByte s.draws).getLsbD b && nn.getLsbD b)) ∧
      (nn = 0 → t.reg x = 0) ∧ t.draws = s.draws + 1 ∧ RegsExcept x s t ∧ AgreeExcept [.V, .draws] s t

/-! ### Index and memory -/

/-- MoveIndex (R250). -/
def Obligations.MoveIndexSetsI : Prop :=
  ∀ (s : State) (nnn : Addr12), decode (encodeNNN 0xA#4 nnn) = .moveIndex nnn ∧
    SetsIndex (.moveIndex nnn) s (nnn.setWidth 16)

/-- AddIndex: the sum modulo 2^16, VF untouched (the spec's decision D5). -/
def Obligations.AddIndexWrapsModulo65536 : Prop :=
  ∀ (s : State) (x : Nibble), decode (encodeX 0xF#4 x 0x1E#8) = .addIndex x ∧
    SetsIndex (.addIndex x) s (BitVec.ofNat 16 ((s.I.toNat + (s.reg x).toNat) % 65536))

/-- FontChar: the glyph address of V[x]'s low nibble; memory is not read (the spec's decision D12: the parameters by
name, log entry 8). -/
def Obligations.FontCharPointsAtTheGlyph : Prop :=
  ∀ (s : State) (x : Nibble), decode (encodeX 0xF#4 x 0x29#8) = .fontChar x ∧
    SetsIndex (.fontChar x) s (BitVec.ofNat 16 (fontBase + glyphBytes * ((s.reg x).toNat % 16)))

/-- Decimal (R253): hundreds, tens and units at I, I + 1, I + 2; every other byte, and I, unchanged. Addresses are modulo
4096 (the spec's decision D2; log entry 7). -/
def Obligations.DecimalStoresThreeDigits : Prop :=
  ∀ (s : State) (x : Nibble), decode (encodeX 0xF#4 x 0x33#8) = .decimal x ∧
    Completes (.decimal x) s fun t =>
      (t.readMem (s.blockAddr 0)).toNat = (s.reg x).toNat / 100 ∧
      (t.readMem (s.blockAddr 1)).toNat = (s.reg x).toNat / 10 % 10 ∧
      (t.readMem (s.blockAddr 2)).toNat = (s.reg x).toNat % 10 ∧
      (∀ a, (∀ k, k < 3 → a % 4096 ≠ (s.I.toNat + k) % 4096) → t.readMem a = s.readMem a) ∧ AgreeExcept [.mem] s t

/-- Store (R254): V0..Vx at I .. I + x, ascending; every other byte, and I, unchanged. Addresses are modulo 4096 (the
spec's decision D2; log entry 7). -/
def Obligations.StoreWritesTheRegisters : Prop :=
  ∀ (s : State) (x : Nibble), decode (encodeX 0xF#4 x 0x55#8) = .store x ∧
    Completes (.store x) s fun t =>
      (∀ k : Nibble, k.toNat ≤ x.toNat → t.readMem (s.blockAddr k.toNat) = s.reg k) ∧
      (∀ a, (∀ k, k ≤ x.toNat → a % 4096 ≠ (s.I.toNat + k) % 4096) → t.readMem a = s.readMem a) ∧
      AgreeExcept [.mem] s t

/-- Load (R255): V0..Vx from I .. I + x; registers above x, memory and I unchanged. Addresses are modulo 4096 (the spec's
decision D2; log entry 7). -/
def Obligations.LoadReadsTheRegisters : Prop :=
  ∀ (s : State) (x : Nibble), decode (encodeX 0xF#4 x 0x65#8) = .load x ∧
    Completes (.load x) s fun t =>
      (∀ k : Nibble, k.toNat ≤ x.toNat → t.reg k = s.readMem ((s.I.toNat + k.toNat) % 4096)) ∧
      (∀ k : Nibble, x.toNat < k.toNat → t.reg k = s.reg k) ∧ AgreeExcept [.V] s t

/-- Storing V0..Vx and loading them into any register file, with I and memory as the Store left them, gives the original
values. -/
def Obligations.StoreThenLoadGivesTheRegistersBack : Prop :=
  ∀ (s : State) (x : Nibble) (file : Regs),
    Completes (.store x) s fun t => Completes (.load x) { t with V := file } fun u =>
      ∀ k : Nibble, k.toNat ≤ x.toNat → u.reg k = s.reg k

/-! ### Display -/

/-- ClearScreen (R276): every pixel off, VF and all else unchanged. -/
def Obligations.ClearScreenTurnsEveryPixelOff : Prop :=
  ∀ (s : State), decode 0x00E0#16 = .clearScreen ∧
    Completes .clearScreen s fun t => (∀ c r, t.disp.pixel c r = false) ∧ AgreeExcept [.disp] s t

/-- Draw: each pixel of the grid is flipped exactly if the sprite has a set bit for it, off-grid bits are dropped, and
every register but VF and all else is unchanged (the spec's decisions D9 and D10; log entries 7 and 15). -/
def Obligations.DrawFlipsTheSpritesPixels : Prop :=
  ∀ (s : State) (x y n : Nibble), decode (encodeXYN 0xD#4 x y n) = .draw x y n ∧
    Completes (.draw x y n) s fun t =>
      (∀ c r, c < 64 → r < 32 →
        (SpriteSets s x y n c r → t.disp.pixel c r = !s.disp.pixel c r) ∧
        (¬SpriteSets s x y n c r → t.disp.pixel c r = s.disp.pixel c r)) ∧
      RegsExcept 0xF#4 s t ∧ AgreeExcept [.disp, .V] s t

/-- Draw's collision: VF is 1 if some pixel was turned off, and 0 otherwise, whatever VF held (the spec's decision D8;
log entry 7). -/
def Obligations.DrawSetsVFToTheCollision : Prop :=
  ∀ (s : State) (x y n : Nibble),
    Completes (.draw x y n) s fun t =>
      ((∃ c r, c < 64 ∧ r < 32 ∧ s.disp.pixel c r = true ∧ t.disp.pixel c r = false) → t.reg 0xF#4 = 1) ∧
      ((∀ c r, c < 64 → r < 32 → s.disp.pixel c r = true → t.disp.pixel c r = true) → t.reg 0xF#4 = 0)

/-- Drawing a sprite twice at one origin (VF not a coordinate) gives the grid back, and the second Draw collides if the
first turned a pixel on (the source's collision test, 95_test_vectors.md S5, from any grid). -/
def Obligations.DrawingTwiceRestoresTheGrid : Prop :=
  ∀ (s : State) (x y n : Nibble), x ≠ 0xF#4 → y ≠ 0xF#4 →
    Completes (.draw x y n) s fun t => Completes (.draw x y n) t fun u =>
      u.disp = s.disp ∧
      ((∃ c r, s.disp.pixel c r = false ∧ t.disp.pixel c r = true) → u.reg 0xF#4 = 1)

/-- Every Draw hands the complete grid to the render sink after all its pixel changes, and no render of any step shows
another grid than the one the step leaves (R281; renders are modelled as log entry 11 says). -/
def Obligations.RendersShowTheCompleteGrid : Prop :=
  ∀ (s t : State), step s = .next t →
    (∀ g ∈ frames s, g = t.disp) ∧
    (∀ rest x y n, EngineNext s rest → s.runs = some (.draw x y n) → frames s ≠ [])

/-! ### Keys and timer -/

/-- SkipKey and SkipNotKey: the test is a value below 16 whose key is pressed; 16 or more names no key (the spec's
decision D13; log entry 7). -/
def Obligations.KeySkipsTestThePressedKey : Prop :=
  ∀ (s : State) (x : Nibble),
    decode (encodeX 0xE#4 x 0x9E#8) = .skipKey x ∧ decode (encodeX 0xE#4 x 0xA1#8) = .skipNotKey x ∧
    (∀ k : Nibble, (s.reg x).toNat = k.toNat →
      SetsPc (.skipKey x) s (if s.pressed k = true then s.pc + 2 else s.pc) ∧
      SetsPc (.skipNotKey x) s (if s.pressed k = true then s.pc else s.pc + 2)) ∧
    (16 ≤ (s.reg x).toNat → SetsPc (.skipKey x) s s.pc ∧ SetsPc (.skipNotKey x) s (s.pc + 2))

/-- GetKey: with a key pressed, V[x] receives the code of a pressed key; with none, the engine waits and nothing else
changes (the spec's decision D14; the choice among several is the free value of log entry 4). -/
def Obligations.GetKeyTakesAPressedKeyOrWaits : Prop :=
  ∀ (s : State) (x : Nibble), decode (encodeX 0xF#4 x 0x0A#8) = .getKey x ∧
    (∀ j, s.pressed j = true → Completes (.getKey x) s fun t =>
      (∃ k, s.pressed k = true ∧ (t.reg x).toNat = k.toNat) ∧ RegsExcept x s t ∧ AgreeExcept [.V, .draws] s t) ∧
    ((∀ j, s.pressed j = false) → Completes (.getKey x) s fun t =>
      t.status = .waitKey x ∧ AgreeExcept [.status] s t)

/-- DelayTimerGet and DelayTimerSet (R304, R305). -/
def Obligations.DelayTimerIsReadAndSet : Prop :=
  ∀ (s : State) (x : Nibble),
    (decode (encodeX 0xF#4 x 0x07#8) = .delayTimerGet x ∧ SetsReg (.delayTimerGet x) s x s.dt) ∧
    (decode (encodeX 0xF#4 x 0x15#8) = .delayTimerSet x ∧
      Completes (.delayTimerSet x) s fun t => t.dt = s.reg x ∧ AgreeExcept [.dt] s t)

/-- SetSoundTimer changes nothing (beyond the step's pc increment), whatever V[x] is (the spec's decision D28). -/
def Obligations.SetSoundTimerChangesNothing : Prop :=
  ∀ (s : State) (x : Nibble), decode (encodeX 0xF#4 x 0x18#8) = .setSoundTimer x ∧
    Completes (.setSoundTimer x) s fun t => AgreeExcept [] s t

/-! ### Faults and the invariant -/

/-- Illegal(w): the IllegalOpcode record with the fetch address and the word, nothing else changed (the spec's decision
D17). -/
def Obligations.IllegalHaltsWithItsRecord : Prop :=
  ∀ (s : State) (w fa : Word), s.pc = fa + 2 →
    Completes (.illegal w) s fun t => t.status = .halted (.illegalOpcode fa w) ∧ AgreeExcept [.status] s t

/-- Reset satisfies the invariant, under whatever inputs a run has. -/
def Obligations.ResetSatisfiesTheInvariant : Prop :=
  State.reset.Inv ∧ ∀ inputs, (State.start inputs).Inv

/-- Every step from any state that satisfies the invariant leaves one that does: memory stays canonical, and a halt's
record is true (the word really illegal or the stack really empty, pc two past the fault). -/
def Obligations.EveryStepKeepsTheInvariant : Prop :=
  ∀ (s t : State), s.Inv → step s = .next t → t.Inv

/-- After any number of transactions from a state that satisfies the invariant, a halt is for good: if the run goes on,
its record and the display stay. -/
def Obligations.AHaltSurvivesEveryRun : Prop :=
  ∀ (n : Nat) (s t : State) (record : HaltRecord), s.Inv → s.status = .halted record →
    Host.Core.run Sys2Proof.core n s = .next t →
    t.Inv ∧ t.status = .halted record ∧ AgreeExcept [.dt, .keys, .closed, .schedule] s t
end

