-- ==== Sys2Proof/Laws/Decode.lean ====
section
/-! SUPPORT. The fields of an encoded word, a word from its fields, and a table mask as a test of fields. -/

namespace Sys2Proof

/-! ### The fields of each format (30_encoding.md R101, R102) -/

@[simp] theorem fieldFamily_encodeNNN (f : Nibble) (nnn : Addr12) : fieldFamily (encodeNNN f nnn) = f := by
  ext i hi; interval_cases i <;> simp [fieldFamily, encodeNNN]

@[simp] theorem fieldNNN_encodeNNN (f : Nibble) (nnn : Addr12) : fieldNNN (encodeNNN f nnn) = nnn := by
  ext i hi; interval_cases i <;> simp [fieldNNN, encodeNNN]

@[simp] theorem fieldFamily_encodeXNN (f x : Nibble) (nn : Byte) : fieldFamily (encodeXNN f x nn) = f := by
  ext i hi; interval_cases i <;> simp [fieldFamily, encodeXNN]

@[simp] theorem fieldX_encodeXNN (f x : Nibble) (nn : Byte) : fieldX (encodeXNN f x nn) = x := by
  ext i hi; interval_cases i <;> simp [fieldX, encodeXNN]

@[simp] theorem fieldNN_encodeXNN (f x : Nibble) (nn : Byte) : fieldNN (encodeXNN f x nn) = nn := by
  ext i hi; interval_cases i <;> simp [fieldNN, encodeXNN]

@[simp] theorem fieldFamily_encodeX (f x : Nibble) (sub : Byte) : fieldFamily (encodeX f x sub) = f :=
  fieldFamily_encodeXNN f x sub

@[simp] theorem fieldX_encodeX (f x : Nibble) (sub : Byte) : fieldX (encodeX f x sub) = x :=
  fieldX_encodeXNN f x sub

@[simp] theorem fieldNN_encodeX (f x : Nibble) (sub : Byte) : fieldNN (encodeX f x sub) = sub :=
  fieldNN_encodeXNN f x sub

@[simp] theorem fieldFamily_encodeXYN (f x y n : Nibble) : fieldFamily (encodeXYN f x y n) = f := by
  ext i hi; interval_cases i <;> simp [fieldFamily, encodeXYN]

@[simp] theorem fieldX_encodeXYN (f x y n : Nibble) : fieldX (encodeXYN f x y n) = x := by
  ext i hi; interval_cases i <;> simp [fieldX, encodeXYN]

@[simp] theorem fieldY_encodeXYN (f x y n : Nibble) : fieldY (encodeXYN f x y n) = y := by
  ext i hi; interval_cases i <;> simp [fieldY, encodeXYN]

@[simp] theorem fieldN_encodeXYN (f x y n : Nibble) : fieldN (encodeXYN f x y n) = n := by
  ext i hi; interval_cases i <;> simp [fieldN, encodeXYN]

/-! ### A word from its fields -/

theorem encodeNNN_fields (w : Word) : encodeNNN (fieldFamily w) (fieldNNN w) = w := by
  ext i hi; interval_cases i <;> simp [fieldFamily, fieldNNN, encodeNNN, ← BitVec.getLsbD_eq_getElem]

theorem encodeXNN_fields (w : Word) : encodeXNN (fieldFamily w) (fieldX w) (fieldNN w) = w := by
  ext i hi; interval_cases i <;> simp [fieldFamily, fieldX, fieldNN, encodeXNN, ← BitVec.getLsbD_eq_getElem]

theorem encodeXYN_fields (w : Word) : encodeXYN (fieldFamily w) (fieldX w) (fieldY w) (fieldN w) = w := by
  ext i hi
  interval_cases i <;> simp [fieldFamily, fieldX, fieldY, fieldN, encodeXYN, ← BitVec.getLsbD_eq_getElem]

/-- The low nibble is part of the low byte. -/
theorem fieldN_of_fieldNN (w : Word) : fieldN w = (fieldNN w).setWidth 4 := by
  ext i hi; interval_cases i <;> simp [fieldN, fieldNN]

/-! ### The bytes of a word (20_memory.md R75) -/

@[simp] theorem wordOfBytes_wordHi_wordLo (w : Word) : wordOfBytes (wordHi w) (wordLo w) = w := by
  ext i hi; interval_cases i <;> simp [wordOfBytes, wordHi, wordLo, ← BitVec.getLsbD_eq_getElem]

@[simp] theorem wordHi_wordOfBytes (hi lo : Byte) : wordHi (wordOfBytes hi lo) = hi := by
  ext i h; interval_cases i <;> simp [wordOfBytes, wordHi]

@[simp] theorem wordLo_wordOfBytes (hi lo : Byte) : wordLo (wordOfBytes hi lo) = lo := by
  ext i h; interval_cases i <;> simp [wordOfBytes, wordLo]

/-- A fetched word as a number, most significant byte first. -/
theorem wordOfBytes_toNat (hi lo : Byte) : (wordOfBytes hi lo).toNat = hi.toNat * 256 + lo.toNat := by
  have h1 : lo.toNat < 2 ^ 8 := lo.isLt
  have h2 : hi.toNat < 2 ^ 8 := hi.isLt
  rw [wordOfBytes, BitVec.toNat_or, BitVec.toNat_shiftLeft, BitVec.toNat_setWidth, BitVec.toNat_setWidth,
    Nat.mod_eq_of_lt (by omega : hi.toNat < 2 ^ 16), Nat.mod_eq_of_lt (by omega : lo.toNat < 2 ^ 16),
    Nat.shiftLeft_eq, Nat.mod_eq_of_lt (by omega), ← Nat.shiftLeft_eq, ← Nat.shiftLeft_add_eq_or_of_lt h1,
    Nat.shiftLeft_eq]

/-! ### The illegal space -/

/-- The illegal space of 30_encoding.md R113, in terms of a word's fields. -/
theorem illegalWord_iff (w : Word) : illegalWord w = true ↔
    (fieldFamily w = 0x0#4 ∧ w ≠ 0x00E0#16 ∧ w ≠ 0x00EE#16) ∨
    ((fieldFamily w = 0x5#4 ∨ fieldFamily w = 0x9#4) ∧ fieldN w ≠ 0x0#4) ∨
    (fieldFamily w = 0x8#4 ∧ fieldN w ∈ [0x8#4, 0x9#4, 0xA#4, 0xB#4, 0xC#4, 0xD#4, 0xF#4]) ∨
    fieldFamily w = 0xB#4 ∨
    (fieldFamily w = 0xE#4 ∧ fieldNN w ∉ [0x9E#8, 0xA1#8]) ∨
    (fieldFamily w = 0xF#4 ∧
      fieldNN w ∉ [0x07#8, 0x0A#8, 0x15#8, 0x18#8, 0x1E#8, 0x29#8, 0x33#8, 0x55#8, 0x65#8]) := by
  simp only [illegalWord, fieldFamily, fieldN, fieldNN, Bool.or_eq_true, Bool.and_eq_true, Bool.not_eq_true',
    beq_iff_eq, List.contains_iff_mem, or_assoc, ne_eq, ← Bool.not_eq_true, not_or]

/-! ### A table mask as a test of fields -/

theorem and_F000_eq (w p : Word) (hp : p &&& 0xF000#16 = p) :
    w &&& 0xF000#16 = p ↔ fieldFamily w = fieldFamily p := by
  have key : ∀ v : Word, v &&& 0xF000#16 = encodeNNN (fieldFamily v) 0 := by
    intro v; ext i hi
    interval_cases i <;> simp [fieldFamily, encodeNNN, ← BitVec.getLsbD_eq_getElem]
  constructor
  · intro h
    rw [← hp, key w, key p] at h
    simpa using congrArg fieldFamily h
  · intro h
    rw [key w, h, ← key p, hp]

theorem and_F00F_eq (w p : Word) (hp : p &&& 0xF00F#16 = p) :
    w &&& 0xF00F#16 = p ↔ fieldFamily w = fieldFamily p ∧ fieldN w = fieldN p := by
  have key : ∀ v : Word, v &&& 0xF00F#16 = encodeXYN (fieldFamily v) 0 0 (fieldN v) := by
    intro v; ext i hi
    interval_cases i <;> simp [fieldFamily, fieldN, encodeXYN, ← BitVec.getLsbD_eq_getElem]
  constructor
  · intro h
    rw [← hp, key w, key p] at h
    exact ⟨by simpa using congrArg fieldFamily h, by simpa using congrArg fieldN h⟩
  · rintro ⟨hf, hn⟩
    rw [key w, hf, hn, ← key p, hp]

theorem and_F0FF_eq (w p : Word) (hp : p &&& 0xF0FF#16 = p) :
    w &&& 0xF0FF#16 = p ↔ fieldFamily w = fieldFamily p ∧ fieldNN w = fieldNN p := by
  have key : ∀ v : Word, v &&& 0xF0FF#16 = encodeXNN (fieldFamily v) 0 (fieldNN v) := by
    intro v; ext i hi
    interval_cases i <;> simp [fieldFamily, fieldNN, encodeXNN, ← BitVec.getLsbD_eq_getElem]
  constructor
  · intro h
    rw [← hp, key w, key p] at h
    exact ⟨by simpa using congrArg fieldFamily h, by simpa using congrArg fieldNN h⟩
  · rintro ⟨hf, hn⟩
    rw [key w, hf, hn, ← key p, hp]

theorem and_FFFF_eq (w : Word) : w &&& 0xFFFF#16 = w := by
  rw [show 0xFFFF#16 = BitVec.allOnes 16 by decide, BitVec.and_allOnes]

end Sys2Proof
end

