-- ==== Sys2Proof/Laws/State.lean ====
section
/-! SUPPORT. One lemma per field per update of State, so that no proof unfolds a record update. -/

namespace Sys2Proof.Machine

variable (s : State)

/-! ### setReg -/

@[simp] theorem State.setReg_mem (x : Nibble) (v : Byte) : (s.setReg x v).mem = s.mem := rfl
@[simp] theorem State.setReg_V (x : Nibble) (v : Byte) : (s.setReg x v).V = s.V.set x.toNat v := rfl
@[simp] theorem State.setReg_I (x : Nibble) (v : Byte) : (s.setReg x v).I = s.I := rfl
@[simp] theorem State.setReg_pc (x : Nibble) (v : Byte) : (s.setReg x v).pc = s.pc := rfl
@[simp] theorem State.setReg_stack (x : Nibble) (v : Byte) : (s.setReg x v).stack = s.stack := rfl
@[simp] theorem State.setReg_disp (x : Nibble) (v : Byte) : (s.setReg x v).disp = s.disp := rfl
@[simp] theorem State.setReg_dt (x : Nibble) (v : Byte) : (s.setReg x v).dt = s.dt := rfl
@[simp] theorem State.setReg_status (x : Nibble) (v : Byte) : (s.setReg x v).status = s.status := rfl
@[simp] theorem State.setReg_keys (x : Nibble) (v : Byte) : (s.setReg x v).keys = s.keys := rfl
@[simp] theorem State.setReg_closed (x : Nibble) (v : Byte) : (s.setReg x v).closed = s.closed := rfl
@[simp] theorem State.setReg_schedule (x : Nibble) (v : Byte) : (s.setReg x v).schedule = s.schedule := rfl
@[simp] theorem State.setReg_draws (x : Nibble) (v : Byte) : (s.setReg x v).draws = s.draws := rfl
@[simp] theorem State.setReg_readMem (x : Nibble) (v : Byte) (n : Nat) : (s.setReg x v).readMem n = s.readMem n := rfl

/-! ### setIndex -/

@[simp] theorem State.setIndex_mem (v : Word) : (s.setIndex v).mem = s.mem := rfl
@[simp] theorem State.setIndex_V (v : Word) : (s.setIndex v).V = s.V := rfl
@[simp] theorem State.setIndex_I (v : Word) : (s.setIndex v).I = v := rfl
@[simp] theorem State.setIndex_pc (v : Word) : (s.setIndex v).pc = s.pc := rfl
@[simp] theorem State.setIndex_stack (v : Word) : (s.setIndex v).stack = s.stack := rfl
@[simp] theorem State.setIndex_disp (v : Word) : (s.setIndex v).disp = s.disp := rfl
@[simp] theorem State.setIndex_dt (v : Word) : (s.setIndex v).dt = s.dt := rfl
@[simp] theorem State.setIndex_status (v : Word) : (s.setIndex v).status = s.status := rfl
@[simp] theorem State.setIndex_keys (v : Word) : (s.setIndex v).keys = s.keys := rfl
@[simp] theorem State.setIndex_closed (v : Word) : (s.setIndex v).closed = s.closed := rfl
@[simp] theorem State.setIndex_schedule (v : Word) : (s.setIndex v).schedule = s.schedule := rfl
@[simp] theorem State.setIndex_draws (v : Word) : (s.setIndex v).draws = s.draws := rfl
@[simp] theorem State.setIndex_reg (v : Word) (j : Nibble) : (s.setIndex v).reg j = s.reg j := rfl
@[simp] theorem State.setIndex_readMem (v : Word) (n : Nat) : (s.setIndex v).readMem n = s.readMem n := rfl

/-! ### setPc -/

@[simp] theorem State.setPc_mem (v : Word) : (s.setPc v).mem = s.mem := rfl
@[simp] theorem State.setPc_V (v : Word) : (s.setPc v).V = s.V := rfl
@[simp] theorem State.setPc_I (v : Word) : (s.setPc v).I = s.I := rfl
@[simp] theorem State.setPc_pc (v : Word) : (s.setPc v).pc = v := rfl
@[simp] theorem State.setPc_stack (v : Word) : (s.setPc v).stack = s.stack := rfl
@[simp] theorem State.setPc_disp (v : Word) : (s.setPc v).disp = s.disp := rfl
@[simp] theorem State.setPc_dt (v : Word) : (s.setPc v).dt = s.dt := rfl
@[simp] theorem State.setPc_status (v : Word) : (s.setPc v).status = s.status := rfl
@[simp] theorem State.setPc_keys (v : Word) : (s.setPc v).keys = s.keys := rfl
@[simp] theorem State.setPc_closed (v : Word) : (s.setPc v).closed = s.closed := rfl
@[simp] theorem State.setPc_schedule (v : Word) : (s.setPc v).schedule = s.schedule := rfl
@[simp] theorem State.setPc_draws (v : Word) : (s.setPc v).draws = s.draws := rfl
@[simp] theorem State.setPc_reg (v : Word) (j : Nibble) : (s.setPc v).reg j = s.reg j := rfl
@[simp] theorem State.setPc_readMem (v : Word) (n : Nat) : (s.setPc v).readMem n = s.readMem n := rfl

/-! ### setDt -/

@[simp] theorem State.setDt_mem (v : Byte) : (s.setDt v).mem = s.mem := rfl
@[simp] theorem State.setDt_V (v : Byte) : (s.setDt v).V = s.V := rfl
@[simp] theorem State.setDt_I (v : Byte) : (s.setDt v).I = s.I := rfl
@[simp] theorem State.setDt_pc (v : Byte) : (s.setDt v).pc = s.pc := rfl
@[simp] theorem State.setDt_stack (v : Byte) : (s.setDt v).stack = s.stack := rfl
@[simp] theorem State.setDt_disp (v : Byte) : (s.setDt v).disp = s.disp := rfl
@[simp] theorem State.setDt_dt (v : Byte) : (s.setDt v).dt = v := rfl
@[simp] theorem State.setDt_status (v : Byte) : (s.setDt v).status = s.status := rfl
@[simp] theorem State.setDt_keys (v : Byte) : (s.setDt v).keys = s.keys := rfl
@[simp] theorem State.setDt_closed (v : Byte) : (s.setDt v).closed = s.closed := rfl
@[simp] theorem State.setDt_schedule (v : Byte) : (s.setDt v).schedule = s.schedule := rfl
@[simp] theorem State.setDt_draws (v : Byte) : (s.setDt v).draws = s.draws := rfl
@[simp] theorem State.setDt_reg (v : Byte) (j : Nibble) : (s.setDt v).reg j = s.reg j := rfl
@[simp] theorem State.setDt_readMem (v : Byte) (n : Nat) : (s.setDt v).readMem n = s.readMem n := rfl

/-! ### setDisp -/

@[simp] theorem State.setDisp_mem (g : Grid) : (s.setDisp g).mem = s.mem := rfl
@[simp] theorem State.setDisp_V (g : Grid) : (s.setDisp g).V = s.V := rfl
@[simp] theorem State.setDisp_I (g : Grid) : (s.setDisp g).I = s.I := rfl
@[simp] theorem State.setDisp_pc (g : Grid) : (s.setDisp g).pc = s.pc := rfl
@[simp] theorem State.setDisp_stack (g : Grid) : (s.setDisp g).stack = s.stack := rfl
@[simp] theorem State.setDisp_disp (g : Grid) : (s.setDisp g).disp = g := rfl
@[simp] theorem State.setDisp_dt (g : Grid) : (s.setDisp g).dt = s.dt := rfl
@[simp] theorem State.setDisp_status (g : Grid) : (s.setDisp g).status = s.status := rfl
@[simp] theorem State.setDisp_keys (g : Grid) : (s.setDisp g).keys = s.keys := rfl
@[simp] theorem State.setDisp_closed (g : Grid) : (s.setDisp g).closed = s.closed := rfl
@[simp] theorem State.setDisp_schedule (g : Grid) : (s.setDisp g).schedule = s.schedule := rfl
@[simp] theorem State.setDisp_draws (g : Grid) : (s.setDisp g).draws = s.draws := rfl
@[simp] theorem State.setDisp_reg (g : Grid) (j : Nibble) : (s.setDisp g).reg j = s.reg j := rfl
@[simp] theorem State.setDisp_readMem (g : Grid) (n : Nat) : (s.setDisp g).readMem n = s.readMem n := rfl

/-! ### advance -/

@[simp] theorem State.advance_mem : s.advance.mem = s.mem := rfl
@[simp] theorem State.advance_V : s.advance.V = s.V := rfl
@[simp] theorem State.advance_I : s.advance.I = s.I := rfl
@[simp] theorem State.advance_pc : s.advance.pc = s.pc + 2 := rfl
@[simp] theorem State.advance_stack : s.advance.stack = s.stack := rfl
@[simp] theorem State.advance_disp : s.advance.disp = s.disp := rfl
@[simp] theorem State.advance_dt : s.advance.dt = s.dt := rfl
@[simp] theorem State.advance_status : s.advance.status = s.status := rfl
@[simp] theorem State.advance_keys : s.advance.keys = s.keys := rfl
@[simp] theorem State.advance_closed : s.advance.closed = s.closed := rfl
@[simp] theorem State.advance_schedule : s.advance.schedule = s.schedule := rfl
@[simp] theorem State.advance_draws : s.advance.draws = s.draws := rfl
@[simp] theorem State.advance_reg (j : Nibble) : s.advance.reg j = s.reg j := rfl
@[simp] theorem State.advance_readMem (n : Nat) : s.advance.readMem n = s.readMem n := rfl

/-! ### setStack -/

@[simp] theorem State.setStack_mem (vs : List Word) : (s.setStack vs).mem = s.mem := rfl
@[simp] theorem State.setStack_V (vs : List Word) : (s.setStack vs).V = s.V := rfl
@[simp] theorem State.setStack_I (vs : List Word) : (s.setStack vs).I = s.I := rfl
@[simp] theorem State.setStack_pc (vs : List Word) : (s.setStack vs).pc = s.pc := rfl
@[simp] theorem State.setStack_stack (vs : List Word) : (s.setStack vs).stack = vs := rfl
@[simp] theorem State.setStack_disp (vs : List Word) : (s.setStack vs).disp = s.disp := rfl
@[simp] theorem State.setStack_dt (vs : List Word) : (s.setStack vs).dt = s.dt := rfl
@[simp] theorem State.setStack_status (vs : List Word) : (s.setStack vs).status = s.status := rfl
@[simp] theorem State.setStack_keys (vs : List Word) : (s.setStack vs).keys = s.keys := rfl
@[simp] theorem State.setStack_closed (vs : List Word) : (s.setStack vs).closed = s.closed := rfl
@[simp] theorem State.setStack_schedule (vs : List Word) : (s.setStack vs).schedule = s.schedule := rfl
@[simp] theorem State.setStack_draws (vs : List Word) : (s.setStack vs).draws = s.draws := rfl
@[simp] theorem State.setStack_reg (vs : List Word) (j : Nibble) : (s.setStack vs).reg j = s.reg j := rfl
@[simp] theorem State.setStack_readMem (vs : List Word) (n : Nat) : (s.setStack vs).readMem n = s.readMem n := rfl

/-! ### push -/

@[simp] theorem State.push_mem (v : Word) : (s.push v).mem = s.mem := rfl
@[simp] theorem State.push_V (v : Word) : (s.push v).V = s.V := rfl
@[simp] theorem State.push_I (v : Word) : (s.push v).I = s.I := rfl
@[simp] theorem State.push_pc (v : Word) : (s.push v).pc = s.pc := rfl
@[simp] theorem State.push_stack (v : Word) : (s.push v).stack = v :: s.stack := rfl
@[simp] theorem State.push_disp (v : Word) : (s.push v).disp = s.disp := rfl
@[simp] theorem State.push_dt (v : Word) : (s.push v).dt = s.dt := rfl
@[simp] theorem State.push_status (v : Word) : (s.push v).status = s.status := rfl
@[simp] theorem State.push_keys (v : Word) : (s.push v).keys = s.keys := rfl
@[simp] theorem State.push_closed (v : Word) : (s.push v).closed = s.closed := rfl
@[simp] theorem State.push_schedule (v : Word) : (s.push v).schedule = s.schedule := rfl
@[simp] theorem State.push_draws (v : Word) : (s.push v).draws = s.draws := rfl
@[simp] theorem State.push_reg (v : Word) (j : Nibble) : (s.push v).reg j = s.reg j := rfl
@[simp] theorem State.push_readMem (v : Word) (n : Nat) : (s.push v).readMem n = s.readMem n := rfl

/-! ### raise -/

@[simp] theorem State.raise_mem (r : HaltRecord) : (s.raise r).mem = s.mem := rfl
@[simp] theorem State.raise_V (r : HaltRecord) : (s.raise r).V = s.V := rfl
@[simp] theorem State.raise_I (r : HaltRecord) : (s.raise r).I = s.I := rfl
@[simp] theorem State.raise_pc (r : HaltRecord) : (s.raise r).pc = s.pc := rfl
@[simp] theorem State.raise_stack (r : HaltRecord) : (s.raise r).stack = s.stack := rfl
@[simp] theorem State.raise_disp (r : HaltRecord) : (s.raise r).disp = s.disp := rfl
@[simp] theorem State.raise_dt (r : HaltRecord) : (s.raise r).dt = s.dt := rfl
@[simp] theorem State.raise_status (r : HaltRecord) : (s.raise r).status = .halted r := rfl
@[simp] theorem State.raise_keys (r : HaltRecord) : (s.raise r).keys = s.keys := rfl
@[simp] theorem State.raise_closed (r : HaltRecord) : (s.raise r).closed = s.closed := rfl
@[simp] theorem State.raise_schedule (r : HaltRecord) : (s.raise r).schedule = s.schedule := rfl
@[simp] theorem State.raise_draws (r : HaltRecord) : (s.raise r).draws = s.draws := rfl
@[simp] theorem State.raise_reg (r : HaltRecord) (j : Nibble) : (s.raise r).reg j = s.reg j := rfl
@[simp] theorem State.raise_readMem (r : HaltRecord) (n : Nat) : (s.raise r).readMem n = s.readMem n := rfl

/-! ### setStatus -/

@[simp] theorem State.setStatus_mem (st : Status) : (s.setStatus st).mem = s.mem := rfl
@[simp] theorem State.setStatus_V (st : Status) : (s.setStatus st).V = s.V := rfl
@[simp] theorem State.setStatus_I (st : Status) : (s.setStatus st).I = s.I := rfl
@[simp] theorem State.setStatus_pc (st : Status) : (s.setStatus st).pc = s.pc := rfl
@[simp] theorem State.setStatus_stack (st : Status) : (s.setStatus st).stack = s.stack := rfl
@[simp] theorem State.setStatus_disp (st : Status) : (s.setStatus st).disp = s.disp := rfl
@[simp] theorem State.setStatus_dt (st : Status) : (s.setStatus st).dt = s.dt := rfl
@[simp] theorem State.setStatus_status (st : Status) : (s.setStatus st).status = st := rfl
@[simp] theorem State.setStatus_keys (st : Status) : (s.setStatus st).keys = s.keys := rfl
@[simp] theorem State.setStatus_closed (st : Status) : (s.setStatus st).closed = s.closed := rfl
@[simp] theorem State.setStatus_schedule (st : Status) : (s.setStatus st).schedule = s.schedule := rfl
@[simp] theorem State.setStatus_draws (st : Status) : (s.setStatus st).draws = s.draws := rfl
@[simp] theorem State.setStatus_reg (st : Status) (j : Nibble) : (s.setStatus st).reg j = s.reg j := rfl
@[simp] theorem State.setStatus_readMem (st : Status) (n : Nat) : (s.setStatus st).readMem n = s.readMem n := rfl

/-! ### countDraw -/

@[simp] theorem State.countDraw_mem : s.countDraw.mem = s.mem := rfl
@[simp] theorem State.countDraw_V : s.countDraw.V = s.V := rfl
@[simp] theorem State.countDraw_I : s.countDraw.I = s.I := rfl
@[simp] theorem State.countDraw_pc : s.countDraw.pc = s.pc := rfl
@[simp] theorem State.countDraw_stack : s.countDraw.stack = s.stack := rfl
@[simp] theorem State.countDraw_disp : s.countDraw.disp = s.disp := rfl
@[simp] theorem State.countDraw_dt : s.countDraw.dt = s.dt := rfl
@[simp] theorem State.countDraw_status : s.countDraw.status = s.status := rfl
@[simp] theorem State.countDraw_keys : s.countDraw.keys = s.keys := rfl
@[simp] theorem State.countDraw_closed : s.countDraw.closed = s.closed := rfl
@[simp] theorem State.countDraw_schedule : s.countDraw.schedule = s.schedule := rfl
@[simp] theorem State.countDraw_draws : s.countDraw.draws = s.draws + 1 := rfl
@[simp] theorem State.countDraw_reg (j : Nibble) : s.countDraw.reg j = s.reg j := rfl
@[simp] theorem State.countDraw_readMem (n : Nat) : s.countDraw.readMem n = s.readMem n := rfl

/-! ### setKeys -/

@[simp] theorem State.setKeys_mem (ks : Keys) : (s.setKeys ks).mem = s.mem := rfl
@[simp] theorem State.setKeys_V (ks : Keys) : (s.setKeys ks).V = s.V := rfl
@[simp] theorem State.setKeys_I (ks : Keys) : (s.setKeys ks).I = s.I := rfl
@[simp] theorem State.setKeys_pc (ks : Keys) : (s.setKeys ks).pc = s.pc := rfl
@[simp] theorem State.setKeys_stack (ks : Keys) : (s.setKeys ks).stack = s.stack := rfl
@[simp] theorem State.setKeys_disp (ks : Keys) : (s.setKeys ks).disp = s.disp := rfl
@[simp] theorem State.setKeys_dt (ks : Keys) : (s.setKeys ks).dt = s.dt := rfl
@[simp] theorem State.setKeys_status (ks : Keys) : (s.setKeys ks).status = s.status := rfl
@[simp] theorem State.setKeys_keys (ks : Keys) : (s.setKeys ks).keys = ks := rfl
@[simp] theorem State.setKeys_closed (ks : Keys) : (s.setKeys ks).closed = s.closed := rfl
@[simp] theorem State.setKeys_schedule (ks : Keys) : (s.setKeys ks).schedule = s.schedule := rfl
@[simp] theorem State.setKeys_draws (ks : Keys) : (s.setKeys ks).draws = s.draws := rfl
@[simp] theorem State.setKeys_reg (ks : Keys) (j : Nibble) : (s.setKeys ks).reg j = s.reg j := rfl
@[simp] theorem State.setKeys_readMem (ks : Keys) (n : Nat) : (s.setKeys ks).readMem n = s.readMem n := rfl

/-! ### close -/

@[simp] theorem State.close_mem : s.close.mem = s.mem := rfl
@[simp] theorem State.close_V : s.close.V = s.V := rfl
@[simp] theorem State.close_I : s.close.I = s.I := rfl
@[simp] theorem State.close_pc : s.close.pc = s.pc := rfl
@[simp] theorem State.close_stack : s.close.stack = s.stack := rfl
@[simp] theorem State.close_disp : s.close.disp = s.disp := rfl
@[simp] theorem State.close_dt : s.close.dt = s.dt := rfl
@[simp] theorem State.close_status : s.close.status = s.status := rfl
@[simp] theorem State.close_keys : s.close.keys = s.keys := rfl
@[simp] theorem State.close_closed : s.close.closed = true := rfl
@[simp] theorem State.close_schedule : s.close.schedule = s.schedule := rfl
@[simp] theorem State.close_draws : s.close.draws = s.draws := rfl
@[simp] theorem State.close_reg (j : Nibble) : s.close.reg j = s.reg j := rfl
@[simp] theorem State.close_readMem (n : Nat) : s.close.readMem n = s.readMem n := rfl

/-! ### setSchedule -/

@[simp] theorem State.setSchedule_mem (ts : List Transaction) : (s.setSchedule ts).mem = s.mem := rfl
@[simp] theorem State.setSchedule_V (ts : List Transaction) : (s.setSchedule ts).V = s.V := rfl
@[simp] theorem State.setSchedule_I (ts : List Transaction) : (s.setSchedule ts).I = s.I := rfl
@[simp] theorem State.setSchedule_pc (ts : List Transaction) : (s.setSchedule ts).pc = s.pc := rfl
@[simp] theorem State.setSchedule_stack (ts : List Transaction) : (s.setSchedule ts).stack = s.stack := rfl
@[simp] theorem State.setSchedule_disp (ts : List Transaction) : (s.setSchedule ts).disp = s.disp := rfl
@[simp] theorem State.setSchedule_dt (ts : List Transaction) : (s.setSchedule ts).dt = s.dt := rfl
@[simp] theorem State.setSchedule_status (ts : List Transaction) : (s.setSchedule ts).status = s.status := rfl
@[simp] theorem State.setSchedule_keys (ts : List Transaction) : (s.setSchedule ts).keys = s.keys := rfl
@[simp] theorem State.setSchedule_closed (ts : List Transaction) : (s.setSchedule ts).closed = s.closed := rfl
@[simp] theorem State.setSchedule_schedule (ts : List Transaction) : (s.setSchedule ts).schedule = ts := rfl
@[simp] theorem State.setSchedule_draws (ts : List Transaction) : (s.setSchedule ts).draws = s.draws := rfl
@[simp] theorem State.setSchedule_reg (ts : List Transaction) (j : Nibble) : (s.setSchedule ts).reg j = s.reg j := rfl
@[simp] theorem State.setSchedule_readMem (ts : List Transaction) (n : Nat) : (s.setSchedule ts).readMem n = s.readMem n := rfl

/-! ### writeMem -/

@[simp] theorem State.writeMem_mem (a : Nat) (vs : List Byte) : (s.writeMem a vs).mem = s.mem.writeBlock a vs := rfl
@[simp] theorem State.writeMem_V (a : Nat) (vs : List Byte) : (s.writeMem a vs).V = s.V := rfl
@[simp] theorem State.writeMem_I (a : Nat) (vs : List Byte) : (s.writeMem a vs).I = s.I := rfl
@[simp] theorem State.writeMem_pc (a : Nat) (vs : List Byte) : (s.writeMem a vs).pc = s.pc := rfl
@[simp] theorem State.writeMem_stack (a : Nat) (vs : List Byte) : (s.writeMem a vs).stack = s.stack := rfl
@[simp] theorem State.writeMem_disp (a : Nat) (vs : List Byte) : (s.writeMem a vs).disp = s.disp := rfl
@[simp] theorem State.writeMem_dt (a : Nat) (vs : List Byte) : (s.writeMem a vs).dt = s.dt := rfl
@[simp] theorem State.writeMem_status (a : Nat) (vs : List Byte) : (s.writeMem a vs).status = s.status := rfl
@[simp] theorem State.writeMem_keys (a : Nat) (vs : List Byte) : (s.writeMem a vs).keys = s.keys := rfl
@[simp] theorem State.writeMem_closed (a : Nat) (vs : List Byte) : (s.writeMem a vs).closed = s.closed := rfl
@[simp] theorem State.writeMem_schedule (a : Nat) (vs : List Byte) : (s.writeMem a vs).schedule = s.schedule := rfl
@[simp] theorem State.writeMem_draws (a : Nat) (vs : List Byte) : (s.writeMem a vs).draws = s.draws := rfl
@[simp] theorem State.writeMem_reg (a : Nat) (vs : List Byte) (j : Nibble) : (s.writeMem a vs).reg j = s.reg j := rfl

/-! ### setFlag -/

@[simp] theorem State.setFlag_mem (v : Byte) : (s.setFlag v).mem = s.mem := rfl
@[simp] theorem State.setFlag_V (v : Byte) : (s.setFlag v).V = s.V.set 15 v := rfl
@[simp] theorem State.setFlag_I (v : Byte) : (s.setFlag v).I = s.I := rfl
@[simp] theorem State.setFlag_pc (v : Byte) : (s.setFlag v).pc = s.pc := rfl
@[simp] theorem State.setFlag_stack (v : Byte) : (s.setFlag v).stack = s.stack := rfl
@[simp] theorem State.setFlag_disp (v : Byte) : (s.setFlag v).disp = s.disp := rfl
@[simp] theorem State.setFlag_dt (v : Byte) : (s.setFlag v).dt = s.dt := rfl
@[simp] theorem State.setFlag_status (v : Byte) : (s.setFlag v).status = s.status := rfl
@[simp] theorem State.setFlag_keys (v : Byte) : (s.setFlag v).keys = s.keys := rfl
@[simp] theorem State.setFlag_closed (v : Byte) : (s.setFlag v).closed = s.closed := rfl
@[simp] theorem State.setFlag_schedule (v : Byte) : (s.setFlag v).schedule = s.schedule := rfl
@[simp] theorem State.setFlag_draws (v : Byte) : (s.setFlag v).draws = s.draws := rfl
@[simp] theorem State.setFlag_readMem (v : Byte) (n : Nat) : (s.setFlag v).readMem n = s.readMem n := rfl

/-! ### Reset, and the start of a run: the record is reset's whatever the inputs -/

@[simp] theorem State.reset_mem : State.reset.mem = [] := rfl
@[simp] theorem State.reset_V : State.reset.V = Vector.replicate 16 0 := rfl
@[simp] theorem State.reset_I : State.reset.I = 0 := rfl
@[simp] theorem State.reset_pc : State.reset.pc = 0x0200 := rfl
@[simp] theorem State.reset_stack : State.reset.stack = [] := rfl
@[simp] theorem State.reset_disp : State.reset.disp = Grid.clear := rfl
@[simp] theorem State.reset_dt : State.reset.dt = 0 := rfl
@[simp] theorem State.reset_status : State.reset.status = .running := rfl
@[simp] theorem State.reset_keys : State.reset.keys = Vector.replicate 16 false := rfl
@[simp] theorem State.reset_closed : State.reset.closed = false := rfl
@[simp] theorem State.start_toRecord (inputs : Inputs) : (State.start inputs).toRecord = State.reset.toRecord := rfl
@[simp] theorem State.start_toInputs (inputs : Inputs) : (State.start inputs).toInputs = inputs := rfl
theorem State.reset_eq_start : State.reset = State.start Inputs.none := rfl

/-! ### Reading a register after writing one -/

theorem State.setReg_reg (x : Nibble) (v : Byte) (j : Nibble) :
    (s.setReg x v).reg j = if j = x then v else s.reg j := by
  simp only [State.reg, State.setReg_V, Vector.getElem_set, BitVec.toNat_inj]
  by_cases h : j = x
  · simp [h]
  · simp [h, Ne.symm h]

@[simp] theorem State.setReg_reg_self (x : Nibble) (v : Byte) : (s.setReg x v).reg x = v := by
  simp [State.setReg_reg]

@[simp] theorem State.setReg_reg_ne (x : Nibble) (v : Byte) (j : Nibble) (h : j ≠ x) :
    (s.setReg x v).reg j = s.reg j := by
  simp [State.setReg_reg, h]

theorem State.setFlag_reg (v : Byte) (j : Nibble) :
    (s.setFlag v).reg j = if j = 0xF#4 then v else s.reg j := State.setReg_reg s regVF v j

/-- Two register files that read alike are equal. -/
theorem State.regs_ext {s t : State} (h : ∀ j, s.reg j = t.reg j) : s.V = t.V := by
  refine Vector.ext fun i hi => ?_
  have := h (BitVec.ofNat 4 i)
  simpa [State.reg, Nat.mod_eq_of_lt hi] using this

end Sys2Proof.Machine
end

