-- ==== Sys2Proof/Laws/Memory.lean ====
section
/-! SUPPORT. Memory: read after write, and that every memory operation keeps the canonical form. -/

namespace Sys2Proof.Machine

/-! ### Cells -/

theorem Memory.cell_insert (m : Memory) (a b : Nat) (v : Byte) :
    (Memory.insert m a v).cell b = if b = a then v else m.cell b := by
  induction m with
  | nil =>
    by_cases h : b = a
    · simp [Memory.insert, Memory.cell, h]
    · simp [Memory.insert, Memory.cell, h, show ¬a = b from fun e => h e.symm]
  | cons c m ih =>
    obtain ⟨d, u⟩ := c
    unfold Memory.insert
    split
    · simp only [Memory.cell]
      by_cases h : b = a
      · simp [h]
      · simp [h, show ¬a = b from fun e => h e.symm]
    · split
      · rename_i h1 h2
        subst h2
        simp only [Memory.cell]
        by_cases h : b = a
        · simp [h]
        · simp [h, show ¬a = b from fun e => h e.symm]
      · simp only [Memory.cell, ih]
        by_cases h : b = a
        · subst h
          rename_i h1 h2
          simp [show ¬d = b from fun e => h2 e.symm]
        · simp [h]

theorem Memory.cell_erase (m : Memory) (a b : Nat) :
    (Memory.erase m a).cell b = if b = a then resetByte a else m.cell b := by
  induction m with
  | nil => by_cases h : b = a <;> simp [Memory.erase, Memory.cell, h]
  | cons c m ih =>
    obtain ⟨d, u⟩ := c
    unfold Memory.erase at ih ⊢
    by_cases hd : d = a
    · subst hd
      simp only [List.filter_cons, bne_self_eq_false, Bool.false_eq_true, if_false, ih, Memory.cell]
      by_cases h : b = d
      · simp [h]
      · simp [h, show ¬d = b from fun e => h e.symm]
    · have : (d != a) = true := by simpa using hd
      simp only [List.filter_cons, this, if_true, Memory.cell, ih]
      by_cases h : b = a
      · subst h; simp [hd]
      · simp [h]

/-- A write is seen at its own cell and nowhere else (20_memory.md R73). -/
theorem Memory.cell_write (m : Memory) (a b : Nat) (v : Byte) :
    (m.write a v).cell b = if b = a % 4096 then v else m.cell b := by
  unfold Memory.write Config.memSize
  split
  · rename_i h; rw [Memory.cell_erase, h]
  · rw [Memory.cell_insert]

theorem Memory.read_write (m : Memory) (a b : Nat) (v : Byte) :
    (m.write a v).read b = if b % 4096 = a % 4096 then v else m.read b := by
  simp only [Memory.read, Memory.cell_write, Config.memSize]

/-- Reads depend on the address modulo 4096 only (20_memory.md R71). -/
theorem Memory.read_congr (m : Memory) {a b : Nat} (h : a % 4096 = b % 4096) : m.read a = m.read b := by
  simp only [Memory.read, Config.memSize, h]

/-- A block write leaves every address outside the block alone. -/
theorem Memory.read_writeBlock_outside (vs : List Byte) (m : Memory) (a b : Nat)
    (h : ∀ k < vs.length, b % 4096 ≠ (a + k) % 4096) : (m.writeBlock a vs).read b = m.read b := by
  induction vs generalizing m a with
  | nil => rfl
  | cons v vs ih =>
    simp only [Memory.writeBlock]
    rw [ih, Memory.read_write, if_neg (by simpa using h 0 (by simp))]
    intro k hk
    have := h (k + 1) (by simpa using hk)
    rwa [show a + 1 + k = a + (k + 1) by omega]

/-- A block write of at most 4096 bytes is read back byte for byte. -/
theorem Memory.read_writeBlock (vs : List Byte) (m : Memory) (a k : Nat) (hk : k < vs.length)
    (hl : vs.length ≤ 4096) : (m.writeBlock a vs).read (a + k) = vs[k] := by
  induction vs generalizing m a k with
  | nil => simp at hk
  | cons v vs ih =>
    simp only [Memory.writeBlock]
    simp only [List.length_cons] at hk hl
    cases k with
    | zero =>
      rw [Memory.read_writeBlock_outside, Memory.read_write]
      · simp
      · intro j hj; omega
    | succ k =>
      rw [show a + (k + 1) = a + 1 + k by omega, ih _ _ _ (by omega) (by omega)]
      simp

/-! ### The canonical form -/

theorem Memory.mem_insert {m : Memory} {a : Nat} {v : Byte} {c : Host.Cell}
    (h : c ∈ Memory.insert m a v) : c = (a, v) ∨ c ∈ m := by
  induction m with
  | nil => simpa [Memory.insert] using h
  | cons d m ih =>
    unfold Memory.insert at h
    split at h
    · simpa using h
    · split at h
      · rcases List.mem_cons.1 h with h | h
        · exact .inl h
        · exact .inr (List.mem_cons_of_mem _ h)
      · rcases List.mem_cons.1 h with h | h
        · exact .inr (h ▸ List.mem_cons_self)
        · exact (ih h).imp_right (List.mem_cons_of_mem _)

theorem Memory.sorted_insert {m : Memory} (a : Nat) (v : Byte)
    (h : m.Pairwise (fun c d => c.1 < d.1)) : (Memory.insert m a v).Pairwise (fun c d => c.1 < d.1) := by
  induction m with
  | nil => simp [Memory.insert]
  | cons d m ih =>
    obtain ⟨hd, hm⟩ := List.pairwise_cons.1 h
    unfold Memory.insert
    split
    · rename_i hlt
      refine List.pairwise_cons.2 ⟨?_, h⟩
      intro c hc
      rcases List.mem_cons.1 hc with rfl | hc
      · exact hlt
      · exact lt_trans hlt (hd c hc)
    · split
      · rename_i heq
        exact List.pairwise_cons.2 ⟨fun c hc => heq ▸ hd c hc, hm⟩
      · rename_i h1 h2
        refine List.pairwise_cons.2 ⟨fun c hc => ?_, ih hm⟩
        rcases Memory.mem_insert hc with rfl | hc
        · simp only; omega
        · exact hd c hc

/-- A write keeps the canonical form. -/
theorem Memory.wf_write {m : Memory} (h : m.wf) (a : Nat) (v : Byte) : (m.write a v).wf := by
  unfold Memory.write
  split
  · exact ⟨h.1.filter _, fun c hc => h.2 c (List.mem_of_mem_filter hc)⟩
  · rename_i hv
    refine ⟨Memory.sorted_insert _ _ h.1, fun c hc => ?_⟩
    rcases Memory.mem_insert hc with rfl | hc
    · exact ⟨Nat.mod_lt _ (by decide), hv⟩
    · exact h.2 c hc

/-- A block write keeps the canonical form. -/
theorem Memory.wf_writeBlock {m : Memory} (h : m.wf) (a : Nat) (vs : List Byte) : (m.writeBlock a vs).wf := by
  induction vs generalizing m a with
  | nil => exact h
  | cons v vs ih => exact ih (Memory.wf_write h a v) (a + 1)

/-- Canonical memories that hold the same bytes are equal data. -/
theorem Memory.eq_of_cells {m n : Memory} (hm : m.wf) (hn : n.wf) (h : ∀ a, m.cell a = n.cell a) : m = n := by
  have below : ∀ {k : Memory} {a : Nat}, (∀ c ∈ k, a < c.1) → k.cell a = resetByte a := by
    intro k a hk
    induction k with
    | nil => rfl
    | cons c k ih =>
      have : c.1 ≠ a := by have := hk c List.mem_cons_self; omega
      obtain ⟨d, u⟩ := c
      simp only [Memory.cell, if_neg this]
      exact ih fun e he => hk e (List.mem_cons_of_mem _ he)
  induction m generalizing n with
  | nil =>
    cases n with
    | nil => rfl
    | cons d n =>
      have := h d.1
      exact absurd (by simpa [Memory.cell] using this.symm) (hn.2 d List.mem_cons_self).2
  | cons c m ih =>
    obtain ⟨hc, hm'⟩ := List.pairwise_cons.1 hm.1
    cases n with
    | nil =>
      have := h c.1
      exact absurd (by simpa [Memory.cell] using this) (hm.2 c List.mem_cons_self).2
    | cons d n =>
      obtain ⟨hd, hn'⟩ := List.pairwise_cons.1 hn.1
      obtain ⟨a, u⟩ := c
      obtain ⟨b, v⟩ := d
      have hu := (hm.2 _ List.mem_cons_self).2
      have hv := (hn.2 _ List.mem_cons_self).2
      have hab : a = b := by
        rcases Nat.lt_trichotomy a b with hlt | heq | hgt
        · have h1 : Memory.cell ((b, v) :: n) a = resetByte a := below (by
            intro e he
            rcases List.mem_cons.1 he with rfl | he
            · exact hlt
            · exact lt_trans hlt (hd e he))
          have := h a
          simp only [Memory.cell, if_true] at this
          exact absurd (this.trans (by simpa [Memory.cell] using h1)) hu
        · exact heq
        · have h1 : Memory.cell ((a, u) :: m) b = resetByte b := below (by
            intro e he
            rcases List.mem_cons.1 he with rfl | he
            · exact hgt
            · exact lt_trans hgt (hc e he))
          have := h b
          rw [h1] at this
          exact absurd (by simpa [Memory.cell] using this.symm) hv
      subst hab
      have huv : u = v := by simpa [Memory.cell] using h a
      subst huv
      congr 1
      refine ih ⟨hm', fun e he => hm.2 e (List.mem_cons_of_mem _ he)⟩
        ⟨hn', fun e he => hn.2 e (List.mem_cons_of_mem _ he)⟩ fun x => ?_
      by_cases hx : a = x
      · subst hx; rw [below hc, below hd]
      · simpa [Memory.cell, hx] using h x

/-! ### The machine's memory -/

theorem State.readMem_congr (s : State) {a b : Nat} (h : a % 4096 = b % 4096) : s.readMem a = s.readMem b :=
  s.mem.read_congr h

theorem State.writeMem_readMem_outside (s : State) (vs : List Byte) (a b : Nat)
    (h : ∀ k < vs.length, b % 4096 ≠ (a + k) % 4096) : (s.writeMem a vs).readMem b = s.readMem b :=
  Memory.read_writeBlock_outside vs s.mem a b h

theorem State.writeMem_readMem (s : State) (vs : List Byte) (a k : Nat) (hk : k < vs.length)
    (hl : vs.length ≤ 4096) : (s.writeMem a vs).readMem (a + k) = vs[k] :=
  Memory.read_writeBlock vs s.mem a k hk hl

/-- The fetch depends on the address modulo 4096 only (20_memory.md R75). -/
theorem State.fetch16_congr (s : State) {a b : Word} (h : a.toNat % 4096 = b.toNat % 4096) :
    s.fetch16 a = s.fetch16 b := by
  simp only [State.fetch16]
  rw [s.readMem_congr h, s.readMem_congr (show (a.toNat + 1) % 4096 = (b.toNat + 1) % 4096 by omega)]

/-- A fetched word is the byte at the address, high, and the byte after it, low (20_memory.md R75). -/
theorem State.fetch16_toNat (s : State) (a : Word) :
    (s.fetch16 a).toNat = (s.readMem a.toNat).toNat * 256 + (s.readMem (a.toNat + 1)).toNat := by
  rw [State.fetch16, wordOfBytes_toNat]

/-- A byte of a written block, read at any address that is its own modulo 4096. -/
theorem State.writeMem_readMem_mod (s : State) (vs : List Byte) (a k b : Nat) (hk : k < vs.length)
    (hl : vs.length ≤ 4096) (hb : b % 4096 = (a + k) % 4096) : (s.writeMem a vs).readMem b = vs[k] := by
  rw [State.readMem_congr _ hb, s.writeMem_readMem vs a k hk hl]

end Sys2Proof.Machine
end

