-- ==== Sys2Proof/Laws/Ops.lean ====
section
/-! SUPPORT. One lemma per shared operation that says everything it can do. -/

namespace Sys2Proof.Machine

/-! ### Skip, stack, fetch address -/

@[simp] theorem State.advance_fetchAddr (s : State) : s.advance.fetchAddr = s.pc := by
  simp [State.fetchAddr]

theorem State.skipIf_eq (s : State) (c : Bool) :
    s.skipIf c = s.setPc (if c then s.pc + 2 else s.pc) := by
  cases c <;> rfl

theorem State.pop_nil {s : State} (h : s.stack = []) : s.pop = none := by
  simp [State.pop, h]

theorem State.pop_cons {s : State} {v : Word} {rest : List Word} (h : s.stack = v :: rest) :
    s.pop = some (v, s.setStack rest) := by
  simp [State.pop, h]

/-! ### Draws -/

@[simp] theorem State.drawByte_fst (s : State) : s.drawByte.1 = Config.randomByte s.draws := rfl

@[simp] theorem State.drawByte_snd (s : State) : s.drawByte.2 = s.countDraw := rfl

/-! ### Keys -/

theorem mem_keyCodes (k : Nibble) : k ∈ keyCodes :=
  List.mem_map.2 ⟨k.toNat, List.mem_range.2 k.isLt, by simp⟩

@[simp] theorem State.mem_pressedKeys (s : State) (k : Nibble) : k ∈ s.pressedKeys ↔ s.pressed k = true := by
  simp [State.pressedKeys, mem_keyCodes]

/-- `takeKey` gives no key exactly when none is pressed. -/
theorem State.takeKey_none (s : State) : s.takeKey = none ↔ ∀ k, s.pressed k = false := by
  have : s.takeKey = none ↔ s.pressedKeys = [] := by
    unfold State.takeKey
    split <;> simp_all
  rw [this, List.eq_nil_iff_forall_not_mem]
  simp

/-- Otherwise it gives a pressed key, and at most counts a draw. -/
theorem State.takeKey_some {s t : State} {k : Nibble} (h : s.takeKey = some (k, t)) :
    s.pressed k = true ∧ (t = s ∨ t = s.countDraw) := by
  unfold State.takeKey at h
  split at h
  · cases h
  · rename_i k' hk
    cases h
    exact ⟨(s.mem_pressedKeys k).1 (hk ▸ List.mem_cons_self), .inl rfl⟩
  · rename_i k' ks hne hk
    injection h with h
    injection h with hk' ht
    refine ⟨(s.mem_pressedKeys k).1 ?_, .inr ht.symm⟩
    have hlt := Nat.mod_lt (Config.keyChoice s.draws) (show 0 < (k' :: ks).length by simp)
    rw [hk, ← hk', List.getD_eq_getElem _ _ hlt]
    exact List.getElem_mem hlt

/-- A pressed key makes `takeKey` answer. -/
theorem State.takeKey_isSome {s : State} {k : Nibble} (h : s.pressed k = true) :
    ∃ j t, s.takeKey = some (j, t) := by
  cases ht : s.takeKey with
  | none => have := (s.takeKey_none).1 ht k; simp [h] at this
  | some p => exact ⟨p.1, p.2, rfl⟩

/-! ### Load's register block -/

/-- What `loadRegs` leaves: registers `k .. k + n - 1` from memory, everything else as it was. -/
theorem State.loadRegs_spec (n : Nat) (s : State) (k : Nat) (h : k + n ≤ 16) :
    (∀ j : Nibble, (s.loadRegs k n).reg j =
      if k ≤ j.toNat ∧ j.toNat < k + n then s.readMem (s.I.toNat + j.toNat) else s.reg j) ∧
    s.loadRegs k n = { s with V := (s.loadRegs k n).V } := by
  induction n generalizing s k with
  | zero =>
    refine ⟨fun j => ?_, rfl⟩
    rw [if_neg (by omega)]
    rfl
  | succ n ih =>
    obtain ⟨h1, h2⟩ := ih (s.setReg (BitVec.ofNat 4 k) (s.readMem (s.I.toNat + k))) (k + 1) (by omega)
    refine ⟨fun j => ?_, ?_⟩
    · simp only [State.loadRegs]
      rw [h1 j, State.setReg_I, State.setReg_readMem]
      by_cases hj : j = BitVec.ofNat 4 k
      · have : j.toNat = k := by rw [hj, BitVec.toNat_ofNat, Nat.mod_eq_of_lt (by omega)]
        rw [if_neg (by omega), if_pos (by omega), hj, State.setReg_reg_self, ← hj, this]
      · have : j.toNat ≠ k := fun e => hj (by rw [← e]; simp)
        rw [State.setReg_reg_ne _ _ _ _ hj]
        by_cases hr : k + 1 ≤ j.toNat ∧ j.toNat < k + 1 + n
        · rw [if_pos hr, if_pos (by omega)]
        · rw [if_neg hr, if_neg (by omega)]
    · simp only [State.loadRegs]
      rw [h2]
      rfl

/-! ### Operand lists -/

@[simp] theorem State.readBlock_length (s : State) (n : Nat) : (s.readBlock n).length = n := by
  simp [State.readBlock]

@[simp] theorem State.readBlock_getElem (s : State) (n k : Nat) (h : k < (s.readBlock n).length) :
    (s.readBlock n)[k] = s.readMem (s.I.toNat + k) := by
  simp [State.readBlock, State.blockAddr]

@[simp] theorem State.regsUpTo_length (s : State) (x : Nibble) : (s.regsUpTo x).length = x.toNat + 1 := by
  simp [State.regsUpTo]

@[simp] theorem State.regsUpTo_getElem (s : State) (x : Nibble) (k : Nat) (h : k < (s.regsUpTo x).length) :
    (s.regsUpTo x)[k] = s.reg (BitVec.ofNat 4 k) := by
  simp [State.regsUpTo]

@[simp] theorem decimalDigits_length (v : Byte) : (decimalDigits v).length = 3 := rfl

/-! ### The Timer -/

/-- A tick decrements a non-zero `dt` and holds at zero (44_keys_timer.md R310). -/
theorem State.tick_eq (s : State) : s.tick = s.setDt (if s.dt = 0 then 0 else s.dt - 1) := by
  unfold State.tick
  split
  · rename_i h; rw [← h]; rfl
  · rfl

theorem State.tick_dt_toNat (s : State) : s.tick.dt.toNat = s.dt.toNat - 1 := by
  rw [State.tick_eq, State.setDt_dt]
  split
  · rename_i h; simp [h]
  · rename_i h
    have : s.dt.toNat ≠ 0 := fun e => h (BitVec.eq_of_toNat_eq (by simpa using e))
    have := s.dt.isLt
    rw [BitVec.toNat_sub]; simp; omega

end Sys2Proof.Machine
end

