-- ==== Sys2Proof/Laws/Display.lean ====
section
/-! SUPPORT. Pixels of the grid, and what drawing a sprite does to each of them (43_display.md R271-R275). -/

namespace Sys2Proof.Machine

/-- A position of the grid. -/
abbrev InGrid (c r : Nat) : Prop := c < 64 ∧ r < 32

theorem Grid.pixel_outside (g : Grid) {c r : Nat} (h : ¬InGrid c r) : g.pixel c r = false := by
  unfold Grid.pixel; exact dif_neg h

theorem Grid.pixel_clear (c r : Nat) : Grid.clear.pixel c r = false := by
  unfold Grid.pixel Grid.clear
  split <;> simp

/-- Two grids with the same pixels are equal. -/
theorem Grid.ext_pixel {g h : Grid} (e : ∀ c r, g.pixel c r = h.pixel c r) : g = h := by
  refine Vector.ext fun r hr => Vector.ext fun c hc => ?_
  have := e c r
  simpa [Grid.pixel, hr, hc] using this

theorem Grid.pixel_setPixel (g : Grid) (c r c' r' : Nat) (b : Bool) :
    (g.setPixel c r b).pixel c' r' =
      if c' = c ∧ r' = r ∧ InGrid c r then b else g.pixel c' r' := by
  unfold Grid.setPixel
  split
  · rename_i h
    by_cases hin : c' < 64 ∧ r' < 32
    · simp only [Grid.pixel, dif_pos hin, Vector.getElem_set]
      by_cases hr : r = r'
      · subst hr
        by_cases hc : c = c'
        · subst hc; simp [h]
        · simp [hc, show ¬c' = c from fun e => hc e.symm]
      · simp [hr, show ¬r' = r from fun e => hr e.symm]
    · rw [Grid.pixel_outside _ hin, Grid.pixel_outside _ hin, if_neg]
      rintro ⟨rfl, rfl, h'⟩; exact hin h'
  · rename_i h
    rw [if_neg]
    rintro ⟨-, -, h'⟩; exact h h'

theorem Grid.flip_pixel (gh : Grid × Bool) (c r c' r' : Nat) :
    (Grid.flip gh c r).1.pixel c' r' = (gh.1.pixel c' r' ^^ decide (c' = c ∧ r' = r ∧ InGrid c r)) := by
  unfold Grid.flip
  split
  · rename_i h
    simp only [Grid.pixel_setPixel]
    by_cases e : c' = c ∧ r' = r ∧ InGrid c r
    · obtain ⟨rfl, rfl, -⟩ := e; simp [h]
    · simp [e]
  · rename_i h
    have : ¬(c' = c ∧ r' = r ∧ InGrid c r) := fun e => h e.2.2
    simp [this]

theorem Grid.flip_hit (gh : Grid × Bool) (c r : Nat) :
    (Grid.flip gh c r).2 = (gh.2 || gh.1.pixel c r) := by
  unfold Grid.flip
  split
  · rfl
  · rename_i h; rw [Grid.pixel_outside _ h]; simp

/-- Whether bit `c - ox` of a row drawn at column `ox` covers column `c`. -/
def rowCovers (row : Byte) (ox c : Nat) : Bool :=
  decide (ox ≤ c) && decide (c < ox + 8) && spriteBit row (c - ox)

/-- The first `n` bits of a row. -/
theorem Grid.drawBits (gh : Grid × Bool) (ox r n : Nat) (row : Byte) :
    let out := (List.range n).foldl
      (fun acc b => if spriteBit row b then Grid.flip acc (ox + b) r else acc) gh
    (∀ c' r', out.1.pixel c' r' = (gh.1.pixel c' r' ^^
      decide (r' = r ∧ InGrid c' r ∧ ox ≤ c' ∧ c' < ox + n ∧ spriteBit row (c' - ox) = true))) ∧
    (out.2 = true ↔ gh.2 = true ∨ ∃ b < n, spriteBit row b = true ∧ gh.1.pixel (ox + b) r = true) := by
  induction n with
  | zero =>
    refine ⟨fun c' r' => ?_, by simp⟩
    have : ¬(r' = r ∧ InGrid c' r ∧ ox ≤ c' ∧ c' < ox + 0 ∧ spriteBit row (c' - ox) = true) := by omega
    rw [decide_eq_false this]; simp
  | succ n ih =>
    simp only [List.range_succ, List.foldl_append, List.foldl_cons, List.foldl_nil]
    obtain ⟨ih1, ih2⟩ := ih
    by_cases hb : spriteBit row n = true
    · simp only [hb, if_true]
      refine ⟨fun c' r' => ?_, ?_⟩
      · rw [Grid.flip_pixel, ih1, Bool.xor_assoc]
        congr 1
        by_cases hc : c' = ox + n
        · subst hc
          have h1 : ¬(r' = r ∧ InGrid (ox + n) r ∧ ox ≤ ox + n ∧ ox + n < ox + n ∧
              spriteBit row (ox + n - ox) = true) := by omega
          simp [hb]
        · have h1 : ¬(c' = ox + n ∧ r' = r ∧ InGrid (ox + n) r) := fun e => hc e.1
          have h2 : (c' < ox + (n + 1)) ↔ (c' < ox + n) := by omega
          simp [hc, h2]
      · have h1 : ¬(r = r ∧ InGrid (ox + n) r ∧ ox ≤ ox + n ∧ ox + n < ox + n ∧
            spriteBit row (ox + n - ox) = true) := by omega
        rw [Grid.flip_hit, Bool.or_eq_true, ih2, ih1, decide_eq_false h1, Bool.xor_false]
        constructor
        · rintro ((h | ⟨b, hbn, h⟩) | h)
          · exact .inl h
          · exact .inr ⟨b, by omega, h⟩
          · exact .inr ⟨n, by omega, hb, h⟩
        · rintro (h | ⟨b, hbn, h, h'⟩)
          · exact .inl (.inl h)
          · by_cases e : b = n
            · subst e; exact .inr h'
            · exact .inl (.inr ⟨b, by omega, h, h'⟩)
    · simp only [hb, Bool.false_eq_true, if_false]
      refine ⟨fun c' r' => ?_, ?_⟩
      · rw [ih1]
        congr 2
        simp only [eq_iff_iff, and_congr_right_iff]
        intro _ _ hle
        constructor
        · rintro ⟨h, h'⟩; exact ⟨by omega, h'⟩
        · rintro ⟨h, h'⟩
          refine ⟨?_, h'⟩
          by_contra hne
          have : c' - ox = n := by omega
          rw [this] at h'; exact hb h'
      · rw [ih2]
        constructor
        · rintro (h | ⟨b, hbn, h⟩)
          · exact .inl h
          · exact .inr ⟨b, by omega, h⟩
        · rintro (h | ⟨b, hbn, h, h'⟩)
          · exact .inl h
          · have : b ≠ n := fun e => hb (e ▸ h)
            exact .inr ⟨b, by omega, h, h'⟩

/-- Whether a sprite drawn with its top left at (ox, oy) covers the pixel (c, r). -/
def spriteCovers : List Byte → Nat → Nat → Nat → Nat → Bool
  | [], _, _, _, _ => false
  | row :: rows, ox, oy, c, r =>
    (decide (r = oy) && rowCovers row ox c) || spriteCovers rows ox (oy + 1) c r

theorem spriteCovers_above (rows : List Byte) (ox oy c r : Nat) (h : r < oy) :
    spriteCovers rows ox oy c r = false := by
  induction rows generalizing oy with
  | nil => rfl
  | cons row rows ih => simp [spriteCovers, show ¬r = oy by omega, ih (oy + 1) (by omega)]

/-- The row that decides. -/
theorem spriteCovers_eq (rows : List Byte) (ox oy c r : Nat) :
    spriteCovers rows ox oy c r = true ↔
      ∃ k, ∃ h : k < rows.length, r = oy + k ∧ rowCovers rows[k] ox c = true := by
  induction rows generalizing oy with
  | nil => simp [spriteCovers]
  | cons row rows ih =>
    simp only [spriteCovers, Bool.or_eq_true, Bool.and_eq_true, decide_eq_true_eq, ih]
    constructor
    · rintro (⟨rfl, h⟩ | ⟨k, hk, rfl, h⟩)
      · exact ⟨0, by simp, by simp, h⟩
      · exact ⟨k + 1, by simpa using hk, by omega, by simpa using h⟩
    · rintro ⟨k, hk, rfl, h⟩
      cases k with
      | zero => exact .inl ⟨by simp, by simpa using h⟩
      | succ k => exact .inr ⟨k, by simpa using hk, by omega, by simpa using h⟩

/-- Drawing rows: each pixel of the grid is flipped exactly if the sprite covers it, and the collision is raised
exactly if a covered pixel was on. -/
theorem Grid.drawRows_spec (rows : List Byte) (gh : Grid × Bool) (ox oy : Nat) :
    (∀ c r, (Grid.drawRows gh ox oy rows).1.pixel c r =
      (gh.1.pixel c r ^^ (decide (InGrid c r) && spriteCovers rows ox oy c r))) ∧
    ((Grid.drawRows gh ox oy rows).2 = true ↔
      gh.2 = true ∨ ∃ c r, spriteCovers rows ox oy c r = true ∧ gh.1.pixel c r = true) := by
  induction rows generalizing gh oy with
  | nil => simp [Grid.drawRows, spriteCovers]
  | cons row rows ih =>
    obtain ⟨d1, d2⟩ := Grid.drawBits gh ox oy 8 row
    obtain ⟨i1, i2⟩ := ih (Grid.drawRow gh ox oy row) (oy + 1)
    have d1' : ∀ c r, (Grid.drawRow gh ox oy row).1.pixel c r = (gh.1.pixel c r ^^
        (decide (InGrid c r) && (decide (r = oy) && rowCovers row ox c))) := by
      intro c r
      refine (d1 c r).trans ?_
      congr 1
      by_cases hr : r = oy
      · subst hr; simp [rowCovers, Bool.and_assoc]
      · simp [hr]
    simp only [Grid.drawRows]
    refine ⟨fun c r => ?_, ?_⟩
    · rw [i1, d1', spriteCovers, Bool.xor_assoc]
      congr 1
      by_cases hr : r = oy
      · subst hr
        rw [spriteCovers_above _ _ _ _ _ (show r < r + 1 by omega)]
        simp
      · simp [hr]
    · rw [i2]
      have hd : (Grid.drawRow gh ox oy row).2 = true ↔
          gh.2 = true ∨ ∃ b < 8, spriteBit row b = true ∧ gh.1.pixel (ox + b) oy = true := d2
      rw [hd]
      have later : ∀ c r, spriteCovers rows ox (oy + 1) c r = true →
          (Grid.drawRow gh ox oy row).1.pixel c r = gh.1.pixel c r := by
        intro c r hc
        obtain ⟨k, hk, rfl, -⟩ := (spriteCovers_eq rows ox (oy + 1) c r).1 hc
        rw [d1']; simp [show ¬oy + 1 + k = oy by omega]
      constructor
      · rintro ((h | ⟨b, hb, h, h'⟩) | ⟨c, r, h, h'⟩)
        · exact .inl h
        · exact .inr ⟨ox + b, oy, by simp [spriteCovers, rowCovers, h, hb], h'⟩
        · exact .inr ⟨c, r, by simp [spriteCovers, h], (later c r h) ▸ h'⟩
      · rintro (h | ⟨c, r, h, h'⟩)
        · exact .inl (.inl h)
        · simp only [spriteCovers, Bool.or_eq_true, Bool.and_eq_true, decide_eq_true_eq, rowCovers] at h
          rcases h with ⟨rfl, ⟨h1, h2⟩, h3⟩ | h
          · exact .inl (.inr ⟨c - ox, by omega, h3, by rwa [show ox + (c - ox) = c by omega]⟩)
          · exact .inr ⟨c, r, h, by rwa [later c r h]⟩

end Sys2Proof.Machine
end

