-- ==== Sys2Proof/Laws/Step.lean ====
section
/-! SUPPORT. What a transaction can do, said once: the inversion of the Engine's turn and of a step. -/

namespace Sys2Proof.Machine

/-! ### The Engine's turn, status by status -/

variable {execute : Instr → State → Result} {s : State}

theorem engineTurn_running (h : s.status = .running) (hc : s.closed = false) :
    engineTurn execute s = engineStep execute s := by
  simp [engineTurn, h, hc]

theorem engineTurn_waiting {x : Nibble} (h : s.status = .waitKey x) (hc : s.closed = false) :
    engineTurn execute s = resumeStep x s := by
  simp [engineTurn, h, hc]

theorem engineTurn_illegal {fa w : Word} (h : s.status = .halted (.illegalOpcode fa w)) (hc : s.closed = false) :
    engineTurn execute s = .next s := by
  simp [engineTurn, h, hc]

theorem engineTurn_underflow {fa : Word} (h : s.status = .halted (.stackUnderflow fa)) :
    engineTurn execute s = .fault (.stackUnderflow fa) := by
  simp [engineTurn, h]

theorem engineTurn_closed (hc : s.closed = true) (h : ∀ fa, s.status ≠ .halted (.stackUnderflow fa)) :
    engineTurn execute s = .fault .hostClosed := by
  unfold engineTurn
  split
  · rename_i hs; exact absurd hs (h _)
  all_goals simp [hc]

/-- If the Engine's turn gives a next state, it was idle (waiting with no key, or halted by an illegal word before the
close), it resumed from a wait, or it ran one instruction. -/
theorem engineTurn_next {t : State} (h : engineTurn execute s = .next t) :
    s.closed = false ∧
    ((t = s ∧ ((∃ fa w, s.status = .halted (.illegalOpcode fa w)) ∨
        ∃ x, s.status = .waitKey x ∧ ∀ k, s.pressed k = false)) ∨
      (∃ x k u, s.status = .waitKey x ∧ s.takeKey = some (k, u) ∧
        t = (u.setReg x (k.setWidth 8)).setStatus .running) ∨
      (s.status = .running ∧ execute (decode (s.fetch16 s.pc)) s.advance = .next t)) := by
  unfold engineTurn at h
  split at h
  · cases h
  · rename_i fa w hst
    split at h
    · cases h
    · rename_i hc
      cases h
      exact ⟨by simpa using hc, .inl ⟨rfl, .inl ⟨fa, w, hst⟩⟩⟩
  · rename_i x hst
    split at h
    · cases h
    · rename_i hc
      refine ⟨by simpa using hc, ?_⟩
      unfold resumeStep at h
      split at h
      · rename_i k u hk
        cases h
        exact .inr (.inl ⟨x, k, u, hst, hk, rfl⟩)
      · rename_i hk
        cases h
        exact .inl ⟨rfl, .inr ⟨x, hst, s.takeKey_none.1 hk⟩⟩
  · rename_i hst
    split at h
    · cases h
    · rename_i hc
      exact ⟨by simpa using hc, .inr (.inr ⟨hst, h⟩)⟩

/-- The schedule's head and tail, the Engine's turn when it is empty. -/
theorem State.nextTransaction_cases (s : State) :
    (s.schedule = [] ∧ s.nextTransaction = (.engine, s)) ∨
      ∃ t ts, s.schedule = t :: ts ∧ s.nextTransaction = (t, s.setSchedule ts) := by
  unfold State.nextTransaction
  cases h : s.schedule with
  | nil => exact .inl ⟨rfl, rfl⟩
  | cons t ts => exact .inr ⟨t, ts, rfl, rfl⟩

theorem step_of_empty {s : State} (h : s.schedule = []) : step s = engineTurn exec s := by
  simp [step, State.nextTransaction, h, transact]

theorem step_of_engine {s : State} {ts : List Transaction} (h : s.schedule = .engine :: ts) :
    step s = engineTurn exec (s.setSchedule ts) := by
  simp [step, State.nextTransaction, h, transact]

theorem step_of_tick {s : State} {ts : List Transaction} (h : s.schedule = .tick :: ts) :
    step s = .next (s.setSchedule ts).tick := by
  simp [step, State.nextTransaction, h, transact]

theorem step_of_setKeys {s : State} {ks : Keys} {ts : List Transaction}
    (h : s.schedule = .setKeys ks :: ts) : step s = .next ((s.setSchedule ts).setKeys ks) := by
  simp [step, State.nextTransaction, h, transact]

theorem step_of_close {s : State} {ts : List Transaction} (h : s.schedule = .close :: ts) :
    step s = .next (s.setSchedule ts).close := by
  simp [step, State.nextTransaction, h, transact]

/-- The Engine's turn as a step. -/
theorem step_of_engineNext {s : State} {ts : List Transaction}
    (h : s.schedule = .engine :: ts ∨ (s.schedule = [] ∧ ts = [])) : step s = engineTurn exec (s.setSchedule ts) := by
  rcases h with h | ⟨h, rfl⟩
  · exact step_of_engine h
  · rw [step_of_empty h, State.setSchedule, ← h]

/-- If a step gives a next state, it was the Timer's, one of the Host's, or the Engine's turn at a state that differs
from `s` in the schedule only. -/
theorem step_next {s t : State} (h : step s = .next t) :
    (∃ ts, s.schedule = .tick :: ts ∧ t = (s.setSchedule ts).tick) ∨
    (∃ ks ts, s.schedule = .setKeys ks :: ts ∧ t = (s.setSchedule ts).setKeys ks) ∨
    (∃ ts, s.schedule = .close :: ts ∧ t = (s.setSchedule ts).close) ∨
    (∃ ts, (s.schedule = .engine :: ts ∨ (s.schedule = [] ∧ ts = [])) ∧
      engineTurn exec (s.setSchedule ts) = .next t) := by
  rcases hs : s.schedule with _ | ⟨_ | _ | ks | _, ts⟩
  · refine .inr (.inr (.inr ⟨[], .inr ⟨rfl, rfl⟩, ?_⟩))
    rw [step_of_empty hs] at h
    rwa [show s.setSchedule [] = s by rw [State.setSchedule, ← hs]]
  · exact .inr (.inr (.inr ⟨ts, .inl rfl, (step_of_engine hs) ▸ h⟩))
  · rw [step_of_tick hs] at h; cases h; exact .inl ⟨ts, rfl, rfl⟩
  · rw [step_of_setKeys hs] at h; cases h; exact .inr (.inl ⟨ks, ts, rfl, rfl⟩)
  · rw [step_of_close hs] at h; cases h; exact .inr (.inr (.inl ⟨ts, rfl, rfl⟩))

/-- `withFetchWord` places the word where the next step fetches. -/
theorem State.withFetchWord_fetch (s : State) (nbits w : Nat) :
    (s.withFetchWord nbits w).fetch16 (s.withFetchWord nbits w).pc = tableWord nbits w := by
  have core : ∀ t : State, t.mem = s.mem.writeBlock s.pc.toNat [wordHi (tableWord nbits w), wordLo (tableWord nbits w)] →
      t.pc = s.pc → t.fetch16 t.pc = tableWord nbits w := by
    intro t hm hp
    have h0 := s.writeMem_readMem [wordHi (tableWord nbits w), wordLo (tableWord nbits w)] s.pc.toNat 0
      (by simp) (by simp)
    have h1 := s.writeMem_readMem [wordHi (tableWord nbits w), wordLo (tableWord nbits w)] s.pc.toNat 1
      (by simp) (by simp)
    simp only [Nat.add_zero, List.getElem_cons_zero, List.getElem_cons_succ] at h0 h1
    have hr : ∀ a, t.readMem a =
        (s.writeMem s.pc.toNat [wordHi (tableWord nbits w), wordLo (tableWord nbits w)]).readMem a := fun a => by
      simp [State.readMem, hm]
    simp [State.fetch16, hp, hr, h0, h1]
  unfold State.withFetchWord State.placeWord
  split <;> exact core _ rfl rfl

end Sys2Proof.Machine
end

