-- ==== Sys2Proof/Laws/Frames.lean ====
section
/-! SUPPORT. Working with frames: a frame field by field, and frames one after another. -/

namespace Sys2Proof.Machine

/-- A frame, field by field: `simp [agreeExcept_iff]` turns it into equations. -/
theorem agreeExcept_iff {fs : List Field} {s t : State} : AgreeExcept fs s t ↔
    (Field.mem ∉ fs → ∀ a, t.readMem a = s.readMem a) ∧ (Field.V ∉ fs → ∀ j, t.reg j = s.reg j) ∧
    (Field.I ∉ fs → t.I = s.I) ∧ (Field.pc ∉ fs → t.pc = s.pc) ∧ (Field.stack ∉ fs → t.stack = s.stack) ∧
    (Field.disp ∉ fs → t.disp = s.disp) ∧ (Field.dt ∉ fs → t.dt = s.dt) ∧
    (Field.status ∉ fs → t.status = s.status) ∧ (Field.keys ∉ fs → t.keys = s.keys) ∧
    (Field.closed ∉ fs → t.closed = s.closed) ∧ (Field.schedule ∉ fs → t.schedule = s.schedule) ∧
    (Field.draws ∉ fs → t.draws = s.draws) := by
  constructor
  · intro h
    exact ⟨h .mem, h .V, h .I, h .pc, h .stack, h .disp, h .dt, h .status, h .keys, h .closed, h .schedule, h .draws⟩
  · rintro ⟨h1, h2, h3, h4, h5, h6, h7, h8, h9, h10, h11, h12⟩ f hf
    cases f
    exacts [h1 hf, h2 hf, h3 hf, h4 hf, h5 hf, h6 hf, h7 hf, h8 hf, h9 hf, h10 hf, h11 hf, h12 hf]

theorem AgreeExcept.refl (fs : List Field) (s : State) : AgreeExcept fs s s := by
  simp [agreeExcept_iff]

/-- A frame may list more fields. -/
theorem AgreeExcept.mono {fs gs : List Field} {s t : State} (h : AgreeExcept fs s t) (hs : fs ⊆ gs) :
    AgreeExcept gs s t := fun f hf => h f fun e => hf (hs e)

/-- What neither of two changes touches, both together leave alone. -/
theorem AgreeExcept.trans {fs gs : List Field} {s t u : State} (h : AgreeExcept fs s t) (h' : AgreeExcept gs t u) :
    AgreeExcept (fs ++ gs) s u := by
  intro f hf
  obtain ⟨h1, h2⟩ := not_or.1 (mt List.mem_append.2 hf)
  have a := h f h1
  have b := h' f h2
  cases f with
  | mem | V => exact fun x => (b x).trans (a x)
  | I | pc | stack | disp | dt | status | keys | closed | schedule | draws => exact Eq.trans b a

end Sys2Proof.Machine
end

