-- ==== Sys2Proof/Laws/Exec.lean ====
section
/-! SUPPORT. The two instructions whose meaning branches on the state's shape, case by case. -/

namespace Sys2Proof.Machine

theorem exec_return_empty {s : State} (h : s.stack = []) :
    exec .return_ s = .next (s.raise (.stackUnderflow s.fetchAddr)) := by
  simp only [exec, execReturn, State.pop_nil h]

theorem exec_return_cons {s : State} {v : Word} {rest : List Word} (h : s.stack = v :: rest) :
    exec .return_ s = .next ((s.setStack rest).setPc v) := by
  simp only [exec, execReturn, State.pop_cons h]

theorem exec_getKey_some {s t : State} {k : Nibble} (x : Nibble) (h : s.takeKey = some (k, t)) :
    exec (.getKey x) s = .next (t.setReg x (k.setWidth 8)) := by
  simp only [exec, execGetKey, h]

theorem exec_getKey_none {s : State} (x : Nibble) (h : s.takeKey = none) :
    exec (.getKey x) s = .next (s.setStatus (.waitKey x)) := by
  simp only [exec, execGetKey, h]

end Sys2Proof.Machine
end

