-- ==== Sys2Proof/Laws/PerInstr.lean ====
section
/-! SUPPORT. One statement about every Operation as syntax, a lemma per constructor: its word has the fixed bits of its
own row of spec/opcode_table.json and of no other row (30_encoding.md R116, R117). -/

namespace Sys2Proof.Laws.TablePattern

/-- The word of a well-formed Operation belongs to its own row of the opcode table and to no other. -/
def Statement (i : Instr) : Prop :=
  i.wf = true → ∀ row ∈ opcodeRows, (row.matches (encode i) = true ↔ row.mnemonic = i.mnemonic)

theorem word_eq_iff (w v : Word) :
    w = v ↔ fieldFamily w = fieldFamily v ∧ fieldX w = fieldX v ∧ fieldNN w = fieldNN v := by
  constructor
  · rintro rfl; simp
  · rintro ⟨hf, hx, hn⟩
    rw [← encodeXNN_fields w, ← encodeXNN_fields v, hf, hx, hn]

/-- What the 33 rows test, in terms of a word's fields. -/
theorem rows_as_fields (w : Word) (P : String → Prop)
    (h : (P "ClearScreen" ↔ fieldFamily w = 0x0#4 ∧ fieldX w = 0x0#4 ∧ fieldNN w = 0xE0#8) ∧
      (P "Return" ↔ fieldFamily w = 0x0#4 ∧ fieldX w = 0x0#4 ∧ fieldNN w = 0xEE#8) ∧
      (∀ p ∈ [("Jump", 0x1#4), ("Call", 0x2#4), ("SkipEqual", 0x3#4), ("SkipNotEqual", 0x4#4), ("Move", 0x6#4),
          ("Add", 0x7#4), ("MoveIndex", 0xA#4), ("Random", 0xC#4), ("Draw", 0xD#4)],
        (P p.1 ↔ fieldFamily w = p.2)) ∧
      (∀ p ∈ [("SkipEqualXY", 0x5#4, 0x0#4), ("MoveXY", 0x8#4, 0x0#4), ("Or", 0x8#4, 0x1#4), ("And", 0x8#4, 0x2#4),
          ("Xor", 0x8#4, 0x3#4), ("AddXY", 0x8#4, 0x4#4), ("SubXY", 0x8#4, 0x5#4), ("ShiftRight", 0x8#4, 0x6#4),
          ("SubYX", 0x8#4, 0x7#4), ("ShiftLeft", 0x8#4, 0xE#4), ("SkipNotEqualXY", 0x9#4, 0x0#4)],
        (P p.1 ↔ fieldFamily w = p.2.1 ∧ fieldN w = p.2.2)) ∧
      (∀ p ∈ [("SkipKey", 0xE#4, 0x9E#8), ("SkipNotKey", 0xE#4, 0xA1#8), ("DelayTimerGet", 0xF#4, 0x07#8),
          ("GetKey", 0xF#4, 0x0A#8), ("DelayTimerSet", 0xF#4, 0x15#8), ("SetSoundTimer", 0xF#4, 0x18#8),
          ("AddIndex", 0xF#4, 0x1E#8), ("FontChar", 0xF#4, 0x29#8), ("Decimal", 0xF#4, 0x33#8),
          ("Store", 0xF#4, 0x55#8), ("Load", 0xF#4, 0x65#8)],
        (P p.1 ↔ fieldFamily w = p.2.1 ∧ fieldNN w = p.2.2))) :
    ∀ row ∈ opcodeRows, (row.matches w = true ↔ P row.mnemonic) := by
  obtain ⟨h1, h2, h3, h4, h5⟩ := h
  simp only [List.forall_mem_cons, List.not_mem_nil, false_imp_iff, implies_true, and_true] at h3 h4 h5
  simp only [opcodeRows, rowsControl, rowsImmediate, rowsRegister, rowsMixed, rowsKeysTimer, rowsIndexMemory,
    List.cons_append, List.nil_append, List.forall_mem_cons, List.not_mem_nil, false_imp_iff, implies_true, and_true,
    OpcodeRow.matches, beq_iff_eq, and_FFFF_eq, h1, h2, h3, h4, h5]
  refine ⟨word_eq_iff w _, word_eq_iff w _, ?_, ?_, ?_, ?_, ?_, ?_, ?_, ?_, ?_, ?_, ?_, ?_, ?_, ?_, ?_, ?_, ?_, ?_, ?_, ?_, ?_, ?_, ?_, ?_, ?_, ?_, ?_,
    ?_, ?_, ?_, ?_⟩ <;>
  first
    | exact and_F000_eq w _ (by decide)
    | exact and_F00F_eq w _ (by decide)
    | exact and_F0FF_eq w _ (by decide)

theorem clearScreen : Statement (.clearScreen) := by
  intro _
  decide

theorem return_ : Statement (.return_) := by
  intro _
  decide

theorem jump (nnn : Addr12) : Statement (.jump nnn) := by
  intro _
  refine rows_as_fields _ (· = "Jump") ?_
  simp [encode]

theorem call (nnn : Addr12) : Statement (.call nnn) := by
  intro _
  refine rows_as_fields _ (· = "Call") ?_
  simp [encode]

theorem skipEqual (x : Nibble) (nn : Byte) : Statement (.skipEqual x nn) := by
  intro _
  refine rows_as_fields _ (· = "SkipEqual") ?_
  simp [encode]

theorem skipNotEqual (x : Nibble) (nn : Byte) : Statement (.skipNotEqual x nn) := by
  intro _
  refine rows_as_fields _ (· = "SkipNotEqual") ?_
  simp [encode]

theorem skipEqualXY (x y : Nibble) : Statement (.skipEqualXY x y) := by
  intro _
  refine rows_as_fields _ (· = "SkipEqualXY") ?_
  simp [encode]

theorem move (x : Nibble) (nn : Byte) : Statement (.move x nn) := by
  intro _
  refine rows_as_fields _ (· = "Move") ?_
  simp [encode]

theorem add (x : Nibble) (nn : Byte) : Statement (.add x nn) := by
  intro _
  refine rows_as_fields _ (· = "Add") ?_
  simp [encode]

theorem moveXY (x y : Nibble) : Statement (.moveXY x y) := by
  intro _
  refine rows_as_fields _ (· = "MoveXY") ?_
  simp [encode]

theorem or (x y : Nibble) : Statement (.or x y) := by
  intro _
  refine rows_as_fields _ (· = "Or") ?_
  simp [encode]

theorem and (x y : Nibble) : Statement (.and x y) := by
  intro _
  refine rows_as_fields _ (· = "And") ?_
  simp [encode]

theorem xor (x y : Nibble) : Statement (.xor x y) := by
  intro _
  refine rows_as_fields _ (· = "Xor") ?_
  simp [encode]

theorem addXY (x y : Nibble) : Statement (.addXY x y) := by
  intro _
  refine rows_as_fields _ (· = "AddXY") ?_
  simp [encode]

theorem subXY (x y : Nibble) : Statement (.subXY x y) := by
  intro _
  refine rows_as_fields _ (· = "SubXY") ?_
  simp [encode]

theorem shiftRight (x y : Nibble) : Statement (.shiftRight x y) := by
  intro _
  refine rows_as_fields _ (· = "ShiftRight") ?_
  simp [encode]

theorem subYX (x y : Nibble) : Statement (.subYX x y) := by
  intro _
  refine rows_as_fields _ (· = "SubYX") ?_
  simp [encode]

theorem shiftLeft (x y : Nibble) : Statement (.shiftLeft x y) := by
  intro _
  refine rows_as_fields _ (· = "ShiftLeft") ?_
  simp [encode]

theorem skipNotEqualXY (x y : Nibble) : Statement (.skipNotEqualXY x y) := by
  intro _
  refine rows_as_fields _ (· = "SkipNotEqualXY") ?_
  simp [encode]

theorem moveIndex (nnn : Addr12) : Statement (.moveIndex nnn) := by
  intro _
  refine rows_as_fields _ (· = "MoveIndex") ?_
  simp [encode]

theorem random (x : Nibble) (nn : Byte) : Statement (.random x nn) := by
  intro _
  refine rows_as_fields _ (· = "Random") ?_
  simp [encode]

theorem draw (x y n : Nibble) : Statement (.draw x y n) := by
  intro _
  refine rows_as_fields _ (· = "Draw") ?_
  simp [encode]

theorem skipKey (x : Nibble) : Statement (.skipKey x) := by
  intro _
  refine rows_as_fields _ (· = "SkipKey") ?_
  simp [encode]

theorem skipNotKey (x : Nibble) : Statement (.skipNotKey x) := by
  intro _
  refine rows_as_fields _ (· = "SkipNotKey") ?_
  simp [encode]

theorem delayTimerGet (x : Nibble) : Statement (.delayTimerGet x) := by
  intro _
  refine rows_as_fields _ (· = "DelayTimerGet") ?_
  simp [encode]

theorem getKey (x : Nibble) : Statement (.getKey x) := by
  intro _
  refine rows_as_fields _ (· = "GetKey") ?_
  simp [encode]

theorem delayTimerSet (x : Nibble) : Statement (.delayTimerSet x) := by
  intro _
  refine rows_as_fields _ (· = "DelayTimerSet") ?_
  simp [encode]

theorem setSoundTimer (x : Nibble) : Statement (.setSoundTimer x) := by
  intro _
  refine rows_as_fields _ (· = "SetSoundTimer") ?_
  simp [encode]

theorem addIndex (x : Nibble) : Statement (.addIndex x) := by
  intro _
  refine rows_as_fields _ (· = "AddIndex") ?_
  simp [encode]

theorem fontChar (x : Nibble) : Statement (.fontChar x) := by
  intro _
  refine rows_as_fields _ (· = "FontChar") ?_
  simp [encode]

theorem decimal (x : Nibble) : Statement (.decimal x) := by
  intro _
  refine rows_as_fields _ (· = "Decimal") ?_
  simp [encode]

theorem store (x : Nibble) : Statement (.store x) := by
  intro _
  refine rows_as_fields _ (· = "Store") ?_
  simp [encode]

theorem load (x : Nibble) : Statement (.load x) := by
  intro _
  refine rows_as_fields _ (· = "Load") ?_
  simp [encode]

theorem illegal (w : Word) : Statement (.illegal w) := by
  intro h
  refine rows_as_fields _ (· = "Illegal") ?_
  rw [Instr.wf, illegalWord_iff] at h
  have h0 : fieldFamily w = 0x0#4 → ¬(fieldX w = 0x0#4 ∧ fieldNN w = 0xE0#8) ∧
      ¬(fieldX w = 0x0#4 ∧ fieldNN w = 0xEE#8) := by
    intro hf
    rw [hf] at h
    have hw : w ≠ 0x00E0#16 ∧ w ≠ 0x00EE#16 := by simpa using h
    exact ⟨fun e => hw.1 ((word_eq_iff w 0x00E0#16).2 ⟨hf, e⟩),
      fun e => hw.2 ((word_eq_iff w 0x00EE#16).2 ⟨hf, e⟩)⟩
  have h1 : ∀ f ∈ [0x1#4, 0x2#4, 0x3#4, 0x4#4, 0x6#4, 0x7#4, 0xA#4, 0xC#4, 0xD#4], fieldFamily w ≠ f := by
    intro f hf e
    rw [e] at h
    fin_cases hf <;> simp at h
  have h2 : ∀ p ∈ [(0x5#4, 0x0#4), (0x8#4, 0x0#4), (0x8#4, 0x1#4), (0x8#4, 0x2#4), (0x8#4, 0x3#4), (0x8#4, 0x4#4),
      (0x8#4, 0x5#4), (0x8#4, 0x6#4), (0x8#4, 0x7#4), (0x8#4, 0xE#4), (0x9#4, 0x0#4)],
      ¬(fieldFamily w = p.1 ∧ fieldN w = p.2) := by
    intro p hp e
    rw [e.1, e.2] at h
    fin_cases hp <;> simp at h
  have h3 : ∀ p ∈ [(0xE#4, 0x9E#8), (0xE#4, 0xA1#8), (0xF#4, 0x07#8), (0xF#4, 0x0A#8), (0xF#4, 0x15#8),
      (0xF#4, 0x18#8), (0xF#4, 0x1E#8), (0xF#4, 0x29#8), (0xF#4, 0x33#8), (0xF#4, 0x55#8), (0xF#4, 0x65#8)],
      ¬(fieldFamily w = p.1 ∧ fieldNN w = p.2) := by
    intro p hp e
    rw [e.1, e.2] at h
    fin_cases hp <;> simp at h
  simp only [List.forall_mem_cons, List.not_mem_nil, false_imp_iff, implies_true, and_true] at h1 h2 h3
  simp only [encode]
  refine ⟨?_, ?_, ?_, ?_, ?_⟩
  · simpa using fun hf => (not_and.1 (h0 hf).1)
  · simpa using fun hf => (not_and.1 (h0 hf).2)
  · simpa using h1
  · simpa using h2
  · simpa using h3

end Sys2Proof.Laws.TablePattern
end

