-- ==== Sys2Proof/Tests/Slice0.lean ====
section
/-! SUPPORT. Tests: the well-formedness smoke test, every constructor's decoding, one step on a small state per
instruction, and a witness for the hypotheses of every obligation. Words and results are those of 95_test_vectors.md and
of the rules cited, worked out by hand. -/

open Sys2Proof Sys2Proof.Machine

namespace Sys2Proof.Tests

/-! ### Helpers -/

/-- `s` with the registers listed. -/
def withRegs (l : List (Nibble × Byte)) (s : State) : State := l.foldl (fun s p => s.setReg p.1 p.2) s

/-- Reset with the registers listed. -/
def start (l : List (Nibble × Byte)) : State := withRegs l State.reset

/-- What `f` sees after one step that runs the word `w` at pc. -/
def ran {α : Type} (w : Nat) (s : State) (f : State → α) : Option α :=
  match step (s.withFetchWord 16 w) with
  | .next t => some (f t)
  | _ => none

/-- What `f` sees after one step from `s` as it is. -/
def stepped {α : Type} (s : State) (f : State → α) : Option α :=
  match step s with
  | .next t => some (f t)
  | _ => none

/-- The set of the keys listed. -/
def keySet (ks : List Nat) : Keys := Vector.ofFn fun k => ks.contains k.val

/-- The on pixels among the columns and rows listed. -/
def lit (cols rows : List Nat) (s : State) : List (Nat × Nat) :=
  rows.flatMap fun r => (cols.filter fun c => s.disp.pixel c r).map fun c => (c, r)

/-! ### Well-formedness (30_encoding.md R113): a legal word is not in the illegal space -/

theorem test_wf_refuses_clearScreen_word : (Instr.illegal 0x00E0).wf = false := by decide
theorem test_wf_refuses_return_word : (Instr.illegal 0x00EE).wf = false := by decide
theorem test_wf_refuses_skipEqualXY_word : (Instr.illegal 0x5120).wf = false := by decide
theorem test_wf_refuses_family8_words :
    [0x8120, 0x8127, 0x812E].map (fun w => (Instr.illegal w).wf) = [false, false, false] := by decide
theorem test_wf_refuses_skipNotEqualXY_word : (Instr.illegal 0x9120).wf = false := by decide
theorem test_wf_refuses_whole_families :
    [0x1ABC, 0x2300, 0x3A12, 0x4A12, 0x6A02, 0x7FFF, 0xA300, 0xC00F, 0xD010].map (fun w => (Instr.illegal w).wf) =
      List.replicate 9 false := by decide
theorem test_wf_refuses_key_words : [0xE19E, 0xE1A1].map (fun w => (Instr.illegal w).wf) = [false, false] := by decide
theorem test_wf_refuses_familyF_words :
    [0xF007, 0xF00A, 0xF015, 0xF018, 0xF01E, 0xF029, 0xF033, 0xF055, 0xF065].map (fun w => (Instr.illegal w).wf) =
      List.replicate 9 false := by decide
theorem test_wf_admits_illegal_words :
    [0x0000, 0x00E1, 0x0123, 0x5121, 0x8128, 0x812F, 0x912F, 0xB123, 0xE19F, 0xF000, 0xFFFF].map
      (fun w => (Instr.illegal w).wf) = List.replicate 11 true := by decide

/-! ### Decoding: 95_test_vectors.md 2.1, every constructor -/

theorem test_decode_control :
    [0x00EE, 0x1ABC, 0x2300, 0x3A12, 0x4A12, 0x5120, 0x9120].map decode =
      [.return_, .jump 0xABC, .call 0x300, .skipEqual 0xA 0x12, .skipNotEqual 0xA 0x12, .skipEqualXY 1 2,
        .skipNotEqualXY 1 2] := by decide
theorem test_decode_alu :
    [0x6A02, 0x7FFF, 0x8120, 0x8121, 0x8122, 0x8123, 0x8124, 0x8125, 0x8126, 0x8127, 0x812E, 0xC00F].map decode =
      [.move 0xA 0x02, .add 0xF 0xFF, .moveXY 1 2, .or 1 2, .and 1 2, .xor 1 2, .addXY 1 2, .subXY 1 2,
        .shiftRight 1 2, .subYX 1 2, .shiftLeft 1 2, .random 0 0x0F] := by decide
theorem test_decode_index_memory :
    [0xA300, 0xF21E, 0xF029, 0xF033, 0xF355, 0xFF65].map decode =
      [.moveIndex 0x300, .addIndex 2, .fontChar 0, .decimal 0, .store 3, .load 0xF] := by decide
theorem test_decode_display :
    [0x00E0, 0xD015, 0xD010].map decode = [.clearScreen, .draw 0 1 5, .draw 0 1 0] := by decide
theorem test_decode_keys_timer :
    [0xE19E, 0xE1A1, 0xF107, 0xF20A, 0xF015, 0xF318].map decode =
      [.skipKey 1, .skipNotKey 1, .delayTimerGet 1, .getKey 2, .delayTimerSet 0, .setSoundTimer 3] := by decide
theorem test_decode_illegal :
    [0x0000, 0x00E1, 0x0123, 0x5121, 0x8128, 0x812D, 0x812F, 0x912F, 0xB123, 0xE19F, 0xF000, 0xF075, 0xFFFF].all
      (fun w => decode w == .illegal w) = true := by decide
/-- A word is two bytes, the high one first (S12): `6A 02` is 6A02; one byte is no word. -/
theorem test_decodeBytes :
    decodeBytes [0x6A, 0x02, 0x55] = some (.move 0xA 0x02, [0x55]) ∧ decodeBytes [0x6A] = none := by decide
theorem test_encode_words :
    [encode (.jump 0xABC), encode (.move 0xA 0x02), encode (.shiftLeft 1 2), encode (.draw 0 1 5), encode (.skipKey 1),
      encode (.store 3)] = [0x1ABC, 0x6A02, 0x812E, 0xD015, 0xE19E, 0xF355] := by decide
theorem test_decodeTableWord :
    decodeTableWord 16 0x6A02 = some (.move 0xA 0x02) ∧ decodeTableWord 8 0xFFE0 = some .clearScreen ∧
      decodeTableWord 16 0xB123 = some (.illegal 0xB123) := by decide

/-! ### Fetch, memory, reset: 95_test_vectors.md 2.2, 10_state.md R45 -/

theorem test_fetch_big_endian : (State.reset.writeMem 0x300 [0x12, 0x34]).fetch16 0x300 = 0x1234 := by decide
theorem test_fetch_wraps : (State.reset.writeMem 0xFFF [0x60, 0x05]).fetch16 0xFFF = 0x6005 := by decide
theorem test_odd_fetch :
    ran 0x6007 { State.reset with pc := 0x201 } (fun t => (t.reg 0, t.pc)) = some (7, 0x203) := by decide
theorem test_pc_wraps : ran 0x6001 { State.reset with pc := 0xFFFE } (fun t => (t.reg 0, t.pc)) = some (1, 0) := by decide
/-- Writing back the reset contents unlists the cell. -/
theorem test_memory_canonical :
    (State.reset.writeMem 0x300 [0x12, 0x34]).mem = [(0x300, 0x12), (0x301, 0x34)] ∧
      ((State.reset.writeMem 0x300 [0x12, 0x34]).writeMem 0x300 [0]).mem = [(0x301, 0x34)] ∧
      (State.reset.writeMem 0 [0xF0]).mem = [] := by decide
/-- Glyph 0 is F0 90 90 90 F0, glyph F ends in 80 at 0x4F; the byte after it is zero (43_display.md R285). -/
theorem test_reset_font :
    [0, 1, 4, 0x4F, 0x50].map State.reset.readMem = [0xF0, 0x90, 0xF0, 0x80, 0x00] := by decide

/-! ### Control flow: 2.3 -/

theorem test_jump : ran 0x1300 State.reset (·.pc) = some 0x300 := by decide
theorem test_jump_odd : ran 0x1201 State.reset (·.pc) = some 0x201 := by decide
theorem test_call : ran 0x2300 State.reset (fun t => (t.pc, t.stack)) = some (0x300, [0x202]) := by decide
theorem test_call_wraps :
    ran 0x2300 { State.reset with pc := 0xFFFE } (fun t => (t.pc, t.stack)) = some (0x300, [0]) := by decide
theorem test_return :
    ran 0x00EE { State.reset with pc := 0x300, stack := [0x206, 0x202] } (fun t => (t.pc, t.stack)) =
      some (0x206, [0x202]) := by decide
theorem test_return_underflow :
    ran 0x00EE { State.reset with pc := 0x202 } (fun t => (t.status, t.pc)) =
      some (.halted (.stackUnderflow 0x202), 0x204) := by decide
theorem test_skipEqual :
    [ran 0x3312 (start [(3, 0x12)]) (·.pc), ran 0x3312 (start [(3, 0x13)]) (·.pc)] = [some 0x204, some 0x202] := by decide
theorem test_skipEqual_wraps : ran 0x3000 { State.reset with pc := 0xFFFC } (·.pc) = some 0 := by decide
theorem test_skipNotEqual :
    [ran 0x4312 (start [(3, 0x13)]) (·.pc), ran 0x4312 (start [(3, 0x12)]) (·.pc)] = [some 0x204, some 0x202] := by decide
theorem test_skipEqualXY :
    [ran 0x5120 (start [(1, 0x40), (2, 0x40)]) (·.pc), ran 0x5120 (start [(1, 0x40), (2, 0x41)]) (·.pc)] =
      [some 0x204, some 0x202] := by decide
theorem test_skipNotEqualXY :
    [ran 0x9120 (start [(1, 0x40), (2, 0x41)]) (·.pc), ran 0x9110 (start [(1, 0x40)]) (·.pc)] =
      [some 0x204, some 0x202] := by decide

/-! ### Registers: 2.4 -/

theorem test_move : ran 0x6A02 State.reset (·.reg 0xA) = some 2 := by decide
theorem test_add_wraps : ran 0x7101 (start [(1, 0xFF)]) (fun t => (t.reg 1, t.reg 0xF)) = some (0, 0) := by decide
theorem test_add_vf : ran 0x7F01 (start [(0xF, 1)]) (·.reg 0xF) = some 2 := by decide
theorem test_moveXY : ran 0x8120 (start [(2, 0x7C)]) (fun t => (t.reg 1, t.reg 2)) = some (0x7C, 0x7C) := by decide
theorem test_or : ran 0x8121 (start [(1, 0xF0), (2, 0x0F)]) (·.reg 1) = some 0xFF := by decide
theorem test_and : ran 0x8122 (start [(1, 0xF3), (2, 0x3C)]) (·.reg 1) = some 0x30 := by decide
theorem test_xor : ran 0x8123 (start [(1, 0xF3), (2, 0x3C)]) (·.reg 1) = some 0xCF := by decide
theorem test_xor_self : ran 0x8113 (start [(1, 0x5A)]) (·.reg 1) = some 0 := by decide
theorem test_addXY_no_carry :
    ran 0x8124 (start [(1, 0xF0), (2, 0x20)]) (fun t => (t.reg 1, t.reg 0xF)) = some (0x10, 0) := by decide
theorem test_addXY_vf : ran 0x8F24 (start [(0xF, 0x10), (2, 5)]) (·.reg 0xF) = some 0x15 := by decide
theorem test_subXY :
    ran 0x8125 (start [(1, 0), (2, 1)]) (fun t => (t.reg 1, t.reg 0xF)) = some (0xFF, 0) := by decide
theorem test_subYX :
    ran 0x8127 (start [(1, 3), (2, 5)]) (fun t => (t.reg 1, t.reg 0xF)) = some (2, 0) := by decide
theorem test_shiftRight :
    ran 0x8126 (start [(1, 0x70), (2, 3)]) (fun t => (t.reg 1, t.reg 0xF, t.reg 2)) = some (1, 1, 3) := by decide
theorem test_shiftRight_vf :
    [ran 0x8F36 (start [(3, 0x81)]) (·.reg 0xF), ran 0x81F6 (start [(0xF, 5)]) (·.reg 1)] = [some 0, some 2] := by decide
theorem test_shiftLeft :
    ran 0x812E (start [(2, 0x81)]) (fun t => (t.reg 1, t.reg 0xF)) = some (2, 1) := by decide
theorem test_shiftLeft_vf :
    [ran 0x8F3E (start [(3, 0x81)]) (·.reg 0xF), ran 0x8F3E (start [(3, 0x7F)]) (·.reg 0xF)] = [some 2, some 0] := by decide
/-- Whatever the draw, the bits clear in nn are clear, and one draw is counted. -/
theorem test_random_masks (s : State) : ∃ t, exec (.random 0 0x00) s = .next t ∧ t.reg 0 = 0 ∧ t.draws = s.draws + 1 :=
  ⟨_, rfl, by simp [State.drawByte, State.setReg, State.reg], rfl⟩

/-! ### Index and memory: 2.5 -/

theorem test_moveIndex : ran 0xA300 State.reset (·.I) = some 0x300 := by decide
theorem test_addIndex :
    [ran 0xF21E (withRegs [(2, 1)] { State.reset with I := 0x0FFF }) (·.I),
      ran 0xF21E (withRegs [(2, 1)] { State.reset with I := 0xFFFF }) (·.I)] = [some 0x1000, some 0] := by decide
theorem test_fontChar :
    [ran 0xF029 (start [(0, 0x1A)]) (·.I), ran 0xF029 (start [(0, 0x0F)]) (·.I)] = [some 0x32, some 0x4B] := by decide
theorem test_decimal :
    ran 0xF033 (withRegs [(0, 156)] { State.reset with I := 0x300 }) (fun t =>
      ([0x300, 0x301, 0x302, 0x303].map t.readMem, t.I)) = some ([1, 5, 6, 0], 0x300) := by decide
theorem test_decimal_wraps :
    ran 0xF033 (withRegs [(0, 7)] { State.reset with I := 0xFFE }) (fun t => [0xFFE, 0xFFF, 0].map t.readMem) =
      some [0, 0, 7] := by decide
theorem test_store_wraps :
    ran 0xF355 (withRegs [(0, 0x11), (1, 0x22), (2, 0x33), (3, 0x44), (4, 0x55)] { State.reset with I := 0xFFE })
      (fun t => [0xFFE, 0xFFF, 0, 1, 2].map t.readMem) = some [0x11, 0x22, 0x33, 0x44, 0x90] := by decide
theorem test_store_reduces_I :
    ran 0xF055 (withRegs [(0, 0x5A)] { State.reset with I := 0x1300 }) (fun t => (t.readMem 0x300, t.I)) =
      some (0x5A, 0x1300) := by decide
theorem test_load :
    ran 0xF365 (withRegs [(4, 0x99)] ({ State.reset with I := 0x300 }.writeMem 0x300 [0x11, 0x22, 0x33, 0x44, 0x55]))
      (fun t => ([0, 1, 2, 3, 4].map t.reg, t.I)) = some ([0x11, 0x22, 0x33, 0x44, 0x99], 0x300) := by decide
theorem test_load_all :
    ran 0xFF65 ({ State.reset with I := 0x300 }.writeMem 0x300 [0, 1, 2, 3, 4, 5, 6, 7, 8, 9, 10, 11, 12, 13, 14, 15])
      (fun t => [0, 1, 8, 0xF].map t.reg) = some [0, 1, 8, 0xF] := by decide

/-! ### Display: 2.6 -/

/-- A state with a sprite byte FF at 0x300 and the origin (8, 4). -/
def barState : State := withRegs [(0, 8), (1, 4)] ({ State.reset with I := 0x300 }.writeMem 0x300 [0xFF])

theorem test_clearScreen :
    ran 0x00E0 { start [(0xF, 1)] with disp := State.reset.disp.setPixel 8 4 true } (fun t =>
      (t.disp.pixel 8 4, t.reg 0xF)) = some (false, 1) := by decide
theorem test_draw_first :
    ran 0xD011 barState (fun t => (lit [7, 8, 15, 16] [3, 4, 5] t, t.reg 0xF)) = some ([(8, 4), (15, 4)], 0) := by decide
theorem test_draw_collides :
    ran 0xD011 { barState with disp := barState.disp.setPixel 9 4 true } (fun t => (lit [8, 9, 10] [4] t, t.reg 0xF)) =
      some ([(8, 4), (10, 4)], 1) := by decide
/-- Glyph 0 at (60, 30): columns past 63 and rows past 31 are dropped (D9), the origin is not (R271). -/
theorem test_draw_clips :
    ran 0xD015 (start [(0, 60), (1, 30)]) (fun t =>
      (lit [0, 1, 60, 61, 62, 63] [0, 1, 30, 31] t, t.reg 0xF)) =
      some ([(60, 30), (61, 30), (62, 30), (63, 30), (60, 31), (63, 31)], 0) := by decide
/-- The origin wraps (70 mod 64, 40 mod 32), the most significant bit is leftmost: glyph A's first two rows, F0 90. -/
theorem test_draw_origin_wraps :
    ran 0xD012 (withRegs [(0, 70), (1, 40)] { State.reset with I := 0x32 }) (lit [5, 6, 7, 8, 9, 10] [8, 9]) =
      some [(6, 8), (7, 8), (8, 8), (9, 8), (6, 9), (9, 9)] := by decide
theorem test_draw_old_vf :
    ran 0xDFF1 (start [(0xF, 0x41)]) (fun t => (lit [0, 1, 4, 5] [1] t, t.reg 0xF)) = some ([(1, 1), (4, 1)], 0) := by decide

/-! ### Keys and timer: 2.7 -/

theorem test_skipKey :
    [ran 0xE19E { start [(1, 5)] with keys := keySet [5] } (·.pc), ran 0xE19E (start [(1, 5)]) (·.pc),
      ran 0xE19E { start [(1, 0x15)] with keys := keySet [5] } (·.pc)] = [some 0x204, some 0x202, some 0x202] := by decide
theorem test_skipNotKey :
    [ran 0xE1A1 (start [(1, 5)]) (·.pc), ran 0xE1A1 { start [(1, 5)] with keys := keySet [5] } (·.pc),
      ran 0xE1A1 { start [(1, 0x25)] with keys := keySet [5] } (·.pc)] = [some 0x204, some 0x202, some 0x204] := by decide
theorem test_getKey :
    ran 0xF20A { State.reset with keys := keySet [7] } (fun t => (t.reg 2, t.pc, t.status)) =
      some (7, 0x202, .running) := by decide
theorem test_getKey_waits : ran 0xF20A State.reset (fun t => (t.status, t.pc)) = some (.waitKey 2, 0x202) := by decide
theorem test_wait_resumes :
    stepped { State.reset with status := .waitKey 2, pc := 0x202, keys := keySet [0xC] } (fun t =>
      (t.reg 2, t.status, t.pc)) = some (0xC, .running, 0x202) := by decide
theorem test_delayTimerSet : ran 0xF015 { start [(0, 0x20)] with dt := 5 } (·.dt) = some 0x20 := by decide
theorem test_delayTimerGet : ran 0xF107 { State.reset with dt := 0xA } (·.reg 1) = some 0xA := by decide
theorem test_tick :
    [stepped { State.reset with dt := 0xA, schedule := [.tick] } (·.dt),
      stepped { State.reset with schedule := [.tick] } (·.dt)] = [some 9, some 0] := by decide
theorem test_setSoundTimer :
    ran 0xF318 (start [(3, 9)]) (fun t => (t.pc, t.dt, t.reg 3, t.status)) = some (0x202, 0, 9, .running) := by decide

/-! ### Faults and the run's end: 2.8, P8, P9 -/

theorem test_illegal :
    ran 0xB123 { State.reset with pc := 0x202 } (fun t => (t.status, t.pc)) =
      some (.halted (.illegalOpcode 0x202 0xB123), 0x204) := by decide
theorem test_halted_idles :
    stepped { State.reset with status := .halted (.illegalOpcode 0x202 0xB123), pc := 0x204 } (·.pc) = some 0x204 := by decide
theorem test_underflow_ends_the_run :
    step { State.reset with status := .halted (.stackUnderflow 0x202), pc := 0x204 } =
      .fault (.stackUnderflow 0x202) := rfl
theorem test_closed_ends_the_run : step { State.reset with closed := true } = .fault .hostClosed := rfl
/-- The Timer still ticks after a halt. -/
theorem test_tick_after_halt :
    stepped { State.reset with status := .halted (.illegalOpcode 0x202 0xB123), dt := 2, schedule := [.tick] } (·.dt) =
      some 1 := by decide
/-- The source's ROM `6A 02 00 EE` (S11), its first step. -/
theorem test_boot :
    (match boot [0x6A, 0x02, 0x00, 0xEE] Inputs.none with
      | .next s => stepped s (fun t => (t.reg 0xA, t.pc, t.fetch16 t.pc))
      | _ => none) = some (2, 0x202, 0x00EE) := by decide
/-- A run's inputs come with it: a Host that presses key C and a tick, then the first Engine turn (R42). -/
theorem test_start_schedule :
    (match Host.Core.run Sys2Proof.core 2 (State.start ⟨[.setKeys (keySet [0xC]), .tick, .engine], 0⟩) with
      | .next s => some (s.pressed 0xC, s.pc, s.schedule)
      | _ => none) = some (true, 0x200, [.engine]) := by decide
theorem test_frames : (frames (barState.withFetchWord 16 0xD011)).map (fun g => (g.pixel 8 4, g.pixel 7 4)) =
    [(true, false), (true, false)] := by decide
/-- The placed word is the very next thing to run, before the moves already listed. -/
theorem test_withFetchWord :
    ran 0x6A02 { State.reset with status := .waitKey 1, closed := true, schedule := [.tick] } (fun t =>
      (t.reg 0xA, t.schedule)) = some (2, [.tick]) := by decide

/-! ### Witnesses: a state and operands that meet each obligation's hypotheses, clause by clause -/

/-- The engine is about to draw the bar of `barState`. -/
def drawState : State := barState.withFetchWord 16 0xD011

/-- The bar's first pixel is on already. -/
def hitState : State := { barState with disp := barState.disp.setPixel 8 4 true }

/-- A halted state that satisfies the invariant. -/
def haltedState : State := { State.reset with status := .halted (.illegalOpcode 0x200 0x0000), pc := 0x202 }

/-- A closed state whose next move is a tick. -/
def closedState : State := { State.reset with closed := true, dt := 1, schedule := [.tick] }

theorem witness_DecodeInvertsEncode :
    (Instr.draw 0xF 0xF 0xF).wf = true ∧ (Instr.illegal 0x00E1).wf = true ∧ (Instr.illegal 0xFFFF).wf = true := by decide

theorem witness_DecodeFollowsOpcodeTable :
    (⟨"ShiftLeft", 0xF00F, 0x800E⟩ ∈ opcodeRows ∧
      OpcodeRow.matches ⟨"ShiftLeft", 0xF00F, 0x800E⟩ 0x8FFE = true) ∧
    ∀ row ∈ opcodeRows, row.matches 0x8FFF = false := by decide

theorem witness_StepRunsTheDecodedInstruction :
    EngineNext drawState [] ∧ drawState.status = .running ∧ drawState.closed = false ∧
      (0xD011 : Word).toNat =
        (drawState.readMem drawState.pc.toNat).toNat * 256 + (drawState.readMem (drawState.pc.toNat + 1)).toNat ∧
      decode 0xD011 = .draw 0 1 1 ∧ (Instr.draw 0 1 1).wf = true :=
  ⟨.inr ⟨rfl, rfl⟩, by decide, by decide, by decide, by decide, rfl⟩

theorem witness_StepRunsTheDecodedInstruction_listed :
    EngineNext { drawState with schedule := [.engine, .tick] } [.tick] := .inl rfl

theorem witness_AddressesWrapModulo4096 :
    (0x1300 : Word).toNat % 4096 = (0x0300 : Word).toNat % 4096 ∧
      (0xFFF : Word).toNat % 4096 = 0xFFF ∧ (0xFFFF : Word).toNat % 4096 = 0xFFF := by decide

/-- Store V0 and Store V2 at 0xFFE: the byte, the byte below it, the word across the top of memory. -/
theorem witness_FetchSeesStores :
    let s : State := { State.reset with I := 0x1FFE }
    ((0 : Nibble).toNat ≤ (0 : Nibble).toNat ∧ (0xFFE : Word).toNat % 4096 = (s.I.toNat + (0 : Nibble).toNat) % 4096 ∧
      ((0xFFD : Word).toNat + 1) % 4096 = (s.I.toNat + (0 : Nibble).toNat) % 4096) ∧
    ((1 : Nibble).toNat ≤ (2 : Nibble).toNat ∧ (2 : Nibble).toNat = (1 : Nibble).toNat + 1 ∧
      (2 : Nibble).toNat ≤ (2 : Nibble).toNat ∧
      (0xFFF : Word).toNat % 4096 = (s.I.toNat + (1 : Nibble).toNat) % 4096) := by decide

/-- The digits of a Decimal at 0xFFE. -/
theorem witness_FetchSeesStores_decimal :
    let s : State := { State.reset with I := 0x0FFE }
    ((0xFFD : Word).toNat + 1) % 4096 = s.I.toNat % 4096 ∧ (0xFFE : Word).toNat % 4096 = s.I.toNat % 4096 ∧
      (0xFFF : Word).toNat % 4096 = (s.I.toNat + 1) % 4096 ∧ (0x000 : Word).toNat % 4096 = (s.I.toNat + 2) % 4096 := by
  decide

theorem witness_ResetLeavesTheListedValues :
    (fontPresent = true ∧ fontBase ≤ 0x00 ∧ 0x00 < fontBase + 16 * glyphBytes) ∧
      (fontPresent = true ∧ fontBase ≤ 0x4F ∧ 0x4F < fontBase + 16 * glyphBytes) ∧
      ¬(0x50 < fontBase + 16 * glyphBytes) ∧ 0xFFF < 4096 := by decide

theorem witness_RomLoadPlacesTheBytes :
    (List.replicate 3584 (0x60 : Byte)).length ≤ 3584 ∧ 3583 < (List.replicate 3584 (0x60 : Byte)).length ∧
      3584 < (List.replicate 3585 (0x60 : Byte)).length ∧ ([] : List Byte).length ≤ 3584 := by
  rw [List.length_replicate, List.length_replicate, List.length_nil]; omega

theorem witness_RomLoadPlacesTheBytes_outside :
    (0x1FF < 4096 ∧ (0x1FF < 0x200 ∨ 0x200 + [0x6A, 0x02].length ≤ 0x1FF)) ∧
      (0x202 < 4096 ∧ (0x202 < 0x200 ∨ 0x200 + [0x6A, 0x02].length ≤ 0x202)) := by decide

theorem witness_FirstStepRunsTheRomsFirstWord :
    ([] : List Byte).length ≤ 3582 ∧ (List.replicate 3582 (0 : Byte)).length ≤ 3582 ∧
      EngineNext (State.start Inputs.none) [] ∧ EngineNext (State.start ⟨[.engine, .tick, .close], 7⟩) [.tick, .close] := by
  refine ⟨?_, ?_, .inr ⟨rfl, rfl⟩, .inl rfl⟩
  · rw [List.length_nil]; omega
  · rw [List.length_replicate]

theorem witness_TickDecrementsAndHoldsAtZero :
    { State.reset with schedule := [.tick] }.schedule = .tick :: [] ∧ { State.reset with schedule := [.tick] }.dt = 0 ∧
      { State.reset with dt := 0xFF, schedule := [.tick, .engine] }.schedule = .tick :: [.engine] := by decide

theorem witness_EnoughTicksBringDtToZero :
    let s : State := { State.reset with dt := 2, schedule := [.tick, .tick, .engine] }
    s.dt.toNat ≤ 2 ∧ s.schedule = List.replicate 2 .tick ++ [.engine] := by decide

theorem witness_HostMovesChangeTheirOwnField :
    { State.reset with schedule := [.setKeys (keySet [0xF])] }.schedule = .setKeys (keySet [0xF]) :: [] ∧
      { State.reset with schedule := [.close, .tick] }.schedule = .close :: [.tick] := by decide

theorem witness_AgentsWriteOnlyTheirOwnState :
    let s : State := State.start ⟨[.setKeys (keySet [5]), .tick], 0⟩
    let u : State := State.start ⟨[.close], 0⟩
    ((∃ t, step closedState = .next t) ∧ closedState.schedule = .tick :: []) ∧
      ((∃ t, step s = .next t) ∧ s.schedule = .setKeys (keySet [5]) :: [.tick]) ∧
      ((∃ t, step u = .next t) ∧ u.schedule = .close :: []) ∧ (∃ t, step drawState = .next t) ∧
      EngineNext drawState [] :=
  ⟨⟨⟨_, rfl⟩, rfl⟩, ⟨⟨_, rfl⟩, rfl⟩, ⟨⟨_, rfl⟩, rfl⟩, ⟨_, rfl⟩, .inr ⟨rfl, rfl⟩⟩

theorem witness_HaltedIsFinal :
    (∃ t, haltedState.status = .halted (.illegalOpcode 0x200 0x0000) ∧ step haltedState = .next t) ∧
      EngineNext haltedState [] := ⟨⟨_, rfl, rfl⟩, .inr ⟨rfl, rfl⟩⟩

theorem witness_HaltedIsFinal_underflow :
    let s : State := { State.reset with status := .halted (.stackUnderflow 0x200), schedule := [.tick] }
    ∃ t, s.status = .halted (.stackUnderflow 0x200) ∧ step s = .next t := ⟨_, rfl, rfl⟩

theorem witness_ClosedIsFinal : ∃ t, closedState.closed = true ∧ step closedState = .next t := ⟨_, rfl, rfl⟩

theorem witness_StepStopsExactlyWhenTheRunHasEnded :
    step { State.reset with status := .halted (.stackUnderflow 0x200), closed := true } =
        .fault (.stackUnderflow 0x200) ∧
      step { haltedState with closed := true } = .fault .hostClosed ∧
      step { State.reset with status := .waitKey 0, closed := true } = .fault .hostClosed := ⟨rfl, rfl, rfl⟩

theorem witness_WaitHoldsWhileNoKeyIsPressed :
    let s : State := { State.reset with status := .waitKey 3 }
    EngineNext s [] ∧ s.status = .waitKey 3 ∧ s.closed = false ∧ ∀ k, s.pressed k = false :=
  ⟨.inr ⟨rfl, rfl⟩, rfl, rfl, by decide⟩

theorem witness_WaitResumesWithAPressedKey :
    let s : State := { State.reset with status := .waitKey 3, keys := keySet [0, 0xE] }
    EngineNext s [] ∧ s.status = .waitKey 3 ∧ s.closed = false ∧ s.pressed 0xE = true :=
  ⟨.inr ⟨rfl, rfl⟩, rfl, rfl, by decide⟩

theorem witness_OnlyTwoConditionsFault :
    (∃ t, exec (.illegal 0xB123) State.reset = .next t ∧ t.status = .halted (.illegalOpcode 0x1FE 0xB123)) ∧
      (∃ t, exec .return_ State.reset = .next t ∧ t.status = .halted (.stackUnderflow 0x1FE)) ∧
      (∃ t, exec (.jump 0) haltedState = .next t ∧ t.status = .halted (.illegalOpcode 0x200 0x0000)) :=
  ⟨⟨_, rfl, rfl⟩, ⟨_, rfl, rfl⟩, ⟨_, rfl, rfl⟩⟩

theorem witness_InstructionsWriteOnlyTheirFields : ∃ t, exec (.draw 0 1 1) barState = .next t := ⟨_, rfl⟩

theorem witness_InstructionsWriteOnlyTheirRegisters :
    (∃ t, exec (.load 0xE) barState = .next t) ∧ regWritten 0xF (.load 0xE) = false ∧
      regWritten 0xE (.draw 0 1 1) = false := ⟨⟨_, rfl⟩, by decide, by decide⟩

theorem witness_OnlyClearScreenAndDrawChangeTheDisplay : ∃ t, step drawState = .next t ∧ t.disp ≠ drawState.disp :=
  ⟨_, rfl, fun h => absurd (congrArg (fun g => Grid.pixel g 8 4) h) (by decide)⟩

theorem witness_OnlyDrawReadsTheDisplay : ∀ x y n, Instr.clearScreen ≠ .draw x y n := by intro x y n h; cases h

theorem witness_DrawsReachOnlyRandomAndGetKey :
    (∀ x nn, Instr.load 3 ≠ .random x nn) ∧ ∀ x, Instr.load 3 ≠ .getKey x :=
  ⟨fun _ _ h => (by cases h), fun _ h => (by cases h)⟩

theorem witness_BlockAccessesUseIModulo4096 :
    ((∃ x y n, Instr.draw 0 1 5 = .draw x y n) ∨ ∃ x, Instr.draw 0 1 5 = .decimal x ∨ Instr.draw 0 1 5 = .store x ∨
        Instr.draw 0 1 5 = .load x) ∧
      (∃ x, Instr.load 3 = .decimal x ∨ Instr.load 3 = .store x ∨ Instr.load 3 = .load x) ∧
      (0xF300 : Word).toNat % 4096 = barState.I.toNat % 4096 :=
  ⟨.inl ⟨0, 1, 5, rfl⟩, ⟨3, .inr (.inr rfl)⟩, by decide⟩

theorem witness_ReturnPopsIntoPc : { State.reset with stack := [0x206, 0x202] }.stack = 0x206 :: [0x202] := rfl

theorem witness_ReturnOnEmptyStackHalts :
    ({ State.reset with pc := 0x202 }.stack = [] ∧ ({ State.reset with pc := 0x202 } : State).pc = 0x200 + 2) ∧
      ({ State.reset with pc := 0 } : State).pc = 0xFFFE + 2 := by decide

theorem witness_SkipsAddTwoWhenTheTestHolds : (0x1 : Nibble) ≠ 0x0 ∧ (0xF : Nibble) ≠ 0x0 := by decide

theorem witness_ShiftRightMovesTheLowBitToVF :
    (0xE : Nibble) ≠ 0xF ∧ (∃ j : Nibble, j ≠ 0xE ∧ j ≠ 0xF) ∧ ∃ x : Nibble, x = 0xF := by decide

theorem witness_ShiftLeftMovesTheHighBitToVF :
    (0x0 : Nibble) ≠ 0xF ∧ (∃ j : Nibble, j ≠ 0x0 ∧ j ≠ 0xF) ∧ ∃ x : Nibble, x = 0xF := by decide

theorem witness_RandomMasksAFreeByte : ∃ nn : Byte, nn = 0 := ⟨0, rfl⟩

/-- The bytes outside a Decimal at 0xFFE: 0xFFD below it and 0x001 past it. -/
theorem witness_DecimalStoresThreeDigits :
    (∀ k, k < 3 → 0xFFD % 4096 ≠ (({ State.reset with I := 0xFFE } : State).I.toNat + k) % 4096) ∧
      ∀ k, k < 3 → 0x001 % 4096 ≠ (({ State.reset with I := 0xFFE } : State).I.toNat + k) % 4096 := by decide

/-- The registers a Store V3 at 0xFFE stores, and the bytes outside it. -/
theorem witness_StoreWritesTheRegisters :
    (0 : Nibble).toNat ≤ (3 : Nibble).toNat ∧ (3 : Nibble).toNat ≤ (3 : Nibble).toNat ∧
      (∀ k, k ≤ (3 : Nibble).toNat → 0xFFD % 4096 ≠ (({ State.reset with I := 0xFFE } : State).I.toNat + k) % 4096) ∧
      ∀ k, k ≤ (3 : Nibble).toNat → 0x002 % 4096 ≠ (({ State.reset with I := 0xFFE } : State).I.toNat + k) % 4096 := by
  decide

theorem witness_LoadReadsTheRegisters :
    (3 : Nibble).toNat ≤ (3 : Nibble).toNat ∧ (3 : Nibble).toNat < (4 : Nibble).toNat := by decide

theorem witness_StoreThenLoadGivesTheRegistersBack : (0xF : Nibble).toNat ≤ (0xF : Nibble).toNat := by decide

theorem witness_DrawFlipsTheSpritesPixels :
    (8 < 64 ∧ 4 < 32 ∧ SpriteSets barState 0 1 1 8 4) ∧ (15 < 64 ∧ SpriteSets barState 0 1 1 15 4) ∧
      (16 < 64 ∧ ¬SpriteSets barState 0 1 1 16 4) := by
  refine ⟨⟨by decide, by decide, 0, 0, by decide⟩, ⟨by decide, 0, 7, by decide⟩, by decide, ?_⟩
  rintro ⟨k, b, -, hb, hc, -, -⟩
  have : (barState.reg 0).toNat % 64 = 8 := by decide
  omega

theorem witness_DrawSetsVFToTheCollision_hit : ∃ t, exec (.draw 0 1 1) hitState = .next t ∧
    ∃ c r, c < 64 ∧ r < 32 ∧ hitState.disp.pixel c r = true ∧ t.disp.pixel c r = false :=
  ⟨_, rfl, 8, 4, by decide, by decide, by decide, by decide⟩

theorem witness_DrawSetsVFToTheCollision_clear : ∃ t, exec (.draw 0 1 1) barState = .next t ∧
    ∀ c r, c < 64 → r < 32 → barState.disp.pixel c r = true → t.disp.pixel c r = true := by
  refine ⟨_, rfl, fun c r hc hr h => ?_⟩
  rw [show barState.disp = Grid.clear from rfl] at h
  simp [Grid.clear, Grid.pixel] at h

theorem witness_DrawingTwiceRestoresTheGrid : (0 : Nibble) ≠ 0xF ∧ (1 : Nibble) ≠ 0xF ∧
    ∃ t, exec (.draw 0 1 1) barState = .next t ∧ ∃ c r, barState.disp.pixel c r = false ∧ t.disp.pixel c r = true :=
  ⟨by decide, by decide, _, rfl, 8, 4, by decide, by decide⟩

theorem witness_RendersShowTheCompleteGrid :
    (∃ t, step drawState = .next t) ∧ EngineNext drawState [] ∧ drawState.runs = some (.draw 0 1 1) ∧
      ∃ g, g ∈ frames drawState :=
  ⟨⟨_, rfl⟩, .inr ⟨rfl, rfl⟩, by decide, _, List.mem_cons_self⟩

theorem witness_KeySkipsTestThePressedKey :
    ((start [(1, 0xF)]).reg 1).toNat = (0xF : Nibble).toNat ∧ 16 ≤ ((start [(1, 0x10)]).reg 1).toNat := by decide

theorem witness_GetKeyTakesAPressedKeyOrWaits :
    ({ State.reset with keys := keySet [3, 9] } : State).pressed 9 = true ∧ ∀ j, State.reset.pressed j = false := by
  decide

theorem witness_IllegalHaltsWithItsRecord : ({ State.reset with pc := 0x204 } : State).pc = 0x202 + 2 := by decide

theorem witness_haltedState_Inv : haltedState.Inv := by
  refine ⟨by decide, ?_⟩
  unfold HaltRecordTrue
  exact ⟨by decide, by decide⟩

theorem witness_EveryStepKeepsTheInvariant :
    (∃ t, haltedState.Inv ∧ step haltedState = .next t) ∧
      (∃ t, State.Inv { State.reset with mem := [(0x200, 0xF0), (0x201, 0x55)] } ∧
        step { State.reset with mem := [(0x200, 0xF0), (0x201, 0x55)] } = .next t) :=
  ⟨⟨_, witness_haltedState_Inv, rfl⟩, ⟨_, ⟨by decide, trivial⟩, rfl⟩⟩

theorem witness_AHaltSurvivesEveryRun : ∃ t, haltedState.Inv ∧
    haltedState.status = .halted (.illegalOpcode 0x200 0x0000) ∧
    Host.Core.run Sys2Proof.core 2 haltedState = .next t :=
  ⟨_, witness_haltedState_Inv, rfl, rfl⟩

end Sys2Proof.Tests
end

section
/-! Control flow (40_control_flow.md): what the decoder gives for the words of the jump and of the comparing skips, what
these instructions do to `pc`, and the obligations of that family. -/

namespace Sys2Proof

/-! ### The decoder, family by family (30_encoding.md R111) -/

theorem decode_of_family_1 {w : Word} (h : fieldFamily w = 0x1#4) : decode w = .jump (fieldNNN w) := by
  simp only [decode, h]

theorem decode_of_family_3 {w : Word} (h : fieldFamily w = 0x3#4) :
    decode w = .skipEqual (fieldX w) (fieldNN w) := by
  simp only [decode, h]

theorem decode_of_family_4 {w : Word} (h : fieldFamily w = 0x4#4) :
    decode w = .skipNotEqual (fieldX w) (fieldNN w) := by
  simp only [decode, h]

theorem decode_of_family_5 {w : Word} (h : fieldFamily w = 0x5#4) :
    decode w = if fieldN w = 0x0#4 then .skipEqualXY (fieldX w) (fieldY w) else .illegal w := by
  simp only [decode, h]

theorem decode_of_family_9 {w : Word} (h : fieldFamily w = 0x9#4) :
    decode w = if fieldN w = 0x0#4 then .skipNotEqualXY (fieldX w) (fieldY w) else .illegal w := by
  simp only [decode, h]

theorem decode_encodeNNN_1 (nnn : Addr12) : decode (encodeNNN 0x1#4 nnn) = .jump nnn := by
  rw [decode_of_family_1 (fieldFamily_encodeNNN ..), fieldNNN_encodeNNN]

theorem decode_encodeXNN_3 (x : Nibble) (nn : Byte) : decode (encodeXNN 0x3#4 x nn) = .skipEqual x nn := by
  rw [decode_of_family_3 (fieldFamily_encodeXNN ..), fieldX_encodeXNN, fieldNN_encodeXNN]

theorem decode_encodeXNN_4 (x : Nibble) (nn : Byte) : decode (encodeXNN 0x4#4 x nn) = .skipNotEqual x nn := by
  rw [decode_of_family_4 (fieldFamily_encodeXNN ..), fieldX_encodeXNN, fieldNN_encodeXNN]

theorem decode_encodeXYN_5 (x y n : Nibble) : decode (encodeXYN 0x5#4 x y n) =
    if n = 0x0#4 then .skipEqualXY x y else .illegal (encodeXYN 0x5#4 x y n) := by
  rw [decode_of_family_5 (fieldFamily_encodeXYN ..), fieldN_encodeXYN, fieldX_encodeXYN, fieldY_encodeXYN]

theorem decode_encodeXYN_9 (x y n : Nibble) : decode (encodeXYN 0x9#4 x y n) =
    if n = 0x0#4 then .skipNotEqualXY x y else .illegal (encodeXYN 0x9#4 x y n) := by
  rw [decode_of_family_9 (fieldFamily_encodeXYN ..), fieldN_encodeXYN, fieldX_encodeXYN, fieldY_encodeXYN]

end Sys2Proof

namespace Sys2Proof.Machine

/-! ### What the instructions do, in terms of the operations of State (R201, R203 to R206) -/

section
variable (s : State) (x y : Nibble) (nn : Byte)

theorem exec_jump (nnn : Addr12) : exec (.jump nnn) s = .next (s.setPc (nnn.setWidth 16)) := rfl

theorem exec_skipEqual : exec (.skipEqual x nn) s = .next (s.skipIf (s.reg x == nn)) := rfl

theorem exec_skipNotEqual : exec (.skipNotEqual x nn) s = .next (s.skipIf (s.reg x != nn)) := rfl

theorem exec_skipEqualXY : exec (.skipEqualXY x y) s = .next (s.skipIf (s.reg x == s.reg y)) := rfl

theorem exec_skipNotEqualXY : exec (.skipNotEqualXY x y) s = .next (s.skipIf (s.reg x != s.reg y)) := rfl

end

/-! ### Instructions that write `pc` alone -/

theorem State.agreeExcept_setPc (s : State) (v : Word) : AgreeExcept [.pc] s (s.setPc v) := by
  simp [agreeExcept_iff]

theorem setsPc_of_exec {i : Instr} {s : State} {v : Word} (h : exec i s = .next (s.setPc v)) : SetsPc i s v :=
  ⟨s.setPc v, h, State.setPc_pc s v, State.agreeExcept_setPc s v⟩

/-- A conditional skip (R207), from the test as the model computes it to the test as a proposition. -/
theorem setsPc_of_skipIf {i : Instr} {s : State} {c : Bool} {P : Prop} [Decidable P]
    (h : exec i s = .next (s.skipIf c)) (hc : c = true ↔ P) : SetsPc i s (if P then s.pc + 2 else s.pc) := by
  simp only [← hc]
  exact setsPc_of_exec (h.trans (congrArg _ (State.skipIf_eq s c)))

/-! ### The obligations -/

/-- Settles O28: the word decodes to the jump, and the jump is one write of `pc`. -/
theorem jumpSetsPc : Obligations.JumpSetsPc := fun s nnn =>
  ⟨decode_encodeNNN_1 nnn, setsPc_of_exec (exec_jump s nnn)⟩

/-- Settles O33: each skip is one conditional skip, and families 5 and 9 decode to their skip exactly at low nibble 0. -/
theorem skipsAddTwoWhenTheTestHolds : Obligations.SkipsAddTwoWhenTheTestHolds := by
  intro s x y nn
  refine ⟨⟨decode_encodeXNN_3 x nn, ?_⟩, ⟨decode_encodeXNN_4 x nn, ?_⟩,
    ⟨(decode_encodeXYN_5 x y 0).trans (if_pos rfl), ?_⟩, ⟨(decode_encodeXYN_9 x y 0).trans (if_pos rfl), ?_⟩, ?_⟩
  · exact setsPc_of_skipIf (exec_skipEqual s x nn) beq_iff_eq
  · exact setsPc_of_skipIf (exec_skipNotEqual s x nn) bne_iff_ne
  · exact setsPc_of_skipIf (exec_skipEqualXY s x y) beq_iff_eq
  · exact setsPc_of_skipIf (exec_skipNotEqualXY s x y) bne_iff_ne
  · intro n hn
    exact ⟨(decode_encodeXYN_5 x y n).trans (if_neg hn), (decode_encodeXYN_9 x y n).trans (if_neg hn)⟩

end Sys2Proof.Machine
end

section
/-! Registers and arithmetic (41_register_alu.md): what the decoder gives for the words of families 6, 7 and 8, what these
instructions do to V[x], and the obligations of that family. -/

namespace Sys2Proof

/-! ### The decoder, family by family (30_encoding.md R111) -/

theorem decode_of_family_6 {w : Word} (h : fieldFamily w = 0x6#4) : decode w = .move (fieldX w) (fieldNN w) := by
  simp only [decode, h]

theorem decode_of_family_7 {w : Word} (h : fieldFamily w = 0x7#4) : decode w = .add (fieldX w) (fieldNN w) := by
  simp only [decode, h]

theorem decode_of_family_8 {w : Word} (h : fieldFamily w = 0x8#4) : decode w = decodeAlu w := by
  simp only [decode, h]

theorem decode_encodeXNN_6 (x : Nibble) (nn : Byte) : decode (encodeXNN 0x6#4 x nn) = .move x nn := by
  rw [decode_of_family_6 (fieldFamily_encodeXNN ..), fieldX_encodeXNN, fieldNN_encodeXNN]

theorem decode_encodeXNN_7 (x : Nibble) (nn : Byte) : decode (encodeXNN 0x7#4 x nn) = .add x nn := by
  rw [decode_of_family_7 (fieldFamily_encodeXNN ..), fieldX_encodeXNN, fieldNN_encodeXNN]

theorem decode_encodeXYN_8 (x y n : Nibble) :
    decode (encodeXYN 0x8#4 x y n) = decodeAlu (encodeXYN 0x8#4 x y n) :=
  decode_of_family_8 (fieldFamily_encodeXYN ..)

/-! ### Family 8, by its low nibble -/

section
variable (f x y : Nibble)

theorem decodeAlu_encodeXYN_0 : decodeAlu (encodeXYN f x y 0x0#4) = .moveXY x y := by simp [decodeAlu]

theorem decodeAlu_encodeXYN_1 : decodeAlu (encodeXYN f x y 0x1#4) = .or x y := by simp [decodeAlu]

theorem decodeAlu_encodeXYN_2 : decodeAlu (encodeXYN f x y 0x2#4) = .and x y := by simp [decodeAlu]

theorem decodeAlu_encodeXYN_3 : decodeAlu (encodeXYN f x y 0x3#4) = .xor x y := by simp [decodeAlu]

theorem decodeAlu_encodeXYN_5 : decodeAlu (encodeXYN f x y 0x5#4) = .subXY x y := by simp [decodeAlu]

theorem decodeAlu_encodeXYN_7 : decodeAlu (encodeXYN f x y 0x7#4) = .subYX x y := by simp [decodeAlu]

end

/-! ### Bytes wrap modulo 256 (R220) -/

theorem byte_add_eq_ofNat (a b : Byte) : a + b = BitVec.ofNat 8 ((a.toNat + b.toNat) % 256) := by
  apply BitVec.eq_of_toNat_eq
  simp

/-- The 256 is added before the subtraction, which truncates in `Nat`. -/
theorem byte_sub_eq_ofNat (a b : Byte) : a - b = BitVec.ofNat 8 ((256 + a.toNat - b.toNat) % 256) := by
  apply BitVec.eq_of_toNat_eq
  rw [BitVec.toNat_sub, BitVec.toNat_ofNat]
  omega

end Sys2Proof

namespace Sys2Proof.Machine

/-! ### What the instructions do, in terms of the operations of State (R230 to R235, R237, R239) -/

section
variable (s : State) (x y : Nibble) (nn : Byte)

theorem exec_move : exec (.move x nn) s = .next (s.setReg x nn) := rfl

theorem exec_add : exec (.add x nn) s = .next (s.setReg x (s.reg x + nn)) := rfl

theorem exec_moveXY : exec (.moveXY x y) s = .next (s.setReg x (s.reg y)) := rfl

theorem exec_or : exec (.or x y) s = .next (s.setReg x (s.reg x ||| s.reg y)) := rfl

theorem exec_and : exec (.and x y) s = .next (s.setReg x (s.reg x &&& s.reg y)) := rfl

theorem exec_xor : exec (.xor x y) s = .next (s.setReg x (s.reg x ^^^ s.reg y)) := rfl

theorem exec_subXY : exec (.subXY x y) s = .next (s.setReg x (s.reg x - s.reg y)) := rfl

theorem exec_subYX : exec (.subYX x y) s = .next (s.setReg x (s.reg y - s.reg x)) := rfl

end

/-! ### Instructions that write one register -/

theorem State.agreeExcept_setReg (s : State) (x : Nibble) (v : Byte) : AgreeExcept [.V] s (s.setReg x v) := by
  simp [agreeExcept_iff]

theorem State.regsExcept_setReg (s : State) (x : Nibble) (v : Byte) : RegsExcept x s (s.setReg x v) :=
  State.setReg_reg_ne s x v

theorem setsReg_of_exec {i : Instr} {s : State} {x : Nibble} {v : Byte} (h : exec i s = .next (s.setReg x v)) :
    SetsReg i s x v :=
  ⟨s.setReg x v, h, State.setReg_reg_self s x v, State.regsExcept_setReg s x v, State.agreeExcept_setReg s x v⟩

/-! ### The obligations -/

/-- Settles O34: both are one register write, and the model's byte sum is the sum modulo 256. -/
theorem moveAndAddImmediate : Obligations.MoveAndAddImmediate := by
  intro s x nn
  refine ⟨⟨decode_encodeXNN_6 x nn, ?_⟩, ⟨decode_encodeXNN_7 x nn, ?_⟩⟩
  · exact setsReg_of_exec (exec_move s x nn)
  · rw [← byte_add_eq_ofNat]
    exact setsReg_of_exec (exec_add s x nn)

/-- Settles O35: each is one register write, and a bit of the written byte comes from the same bit of the operands. -/
theorem moveOrAndXorOfRegisters : Obligations.MoveOrAndXorOfRegisters := by
  intro s x y
  simp only [decode_encodeXYN_8]
  refine ⟨⟨decodeAlu_encodeXYN_0 _ x y, ?_⟩, ⟨decodeAlu_encodeXYN_1 _ x y, s.reg x ||| s.reg y, ?_, ?_⟩,
    ⟨decodeAlu_encodeXYN_2 _ x y, s.reg x &&& s.reg y, ?_, ?_⟩,
    ⟨decodeAlu_encodeXYN_3 _ x y, s.reg x ^^^ s.reg y, ?_, ?_⟩⟩
  · exact setsReg_of_exec (exec_moveXY s x y)
  · exact setsReg_of_exec (exec_or s x y)
  · exact fun _ => BitVec.getLsbD_or
  · exact setsReg_of_exec (exec_and s x y)
  · exact fun _ => BitVec.getLsbD_and
  · exact setsReg_of_exec (exec_xor s x y)
  · exact fun _ => BitVec.getLsbD_xor

/-- Settles O36: each is one register write, and the model's byte difference is the difference modulo 256. -/
theorem subtractionsWrap : Obligations.SubtractionsWrap := by
  intro s x y
  simp only [decode_encodeXYN_8, ← byte_sub_eq_ofNat]
  refine ⟨⟨decodeAlu_encodeXYN_5 _ x y, ?_⟩, ⟨decodeAlu_encodeXYN_7 _ x y, ?_⟩⟩
  · exact setsReg_of_exec (exec_subXY s x y)
  · exact setsReg_of_exec (exec_subYX s x y)

end Sys2Proof.Machine
end

section
/-! Index and memory (42_index_memory.md): what the decoder gives for the words of family A, what MoveIndex does to `I`,
and the obligation of that family. -/

namespace Sys2Proof

/-! ### The decoder, family A (30_encoding.md R111) -/

theorem decode_of_family_A {w : Word} (h : fieldFamily w = 0xA#4) : decode w = .moveIndex (fieldNNN w) := by
  simp only [decode, h]

theorem decode_encodeNNN_A (nnn : Addr12) : decode (encodeNNN 0xA#4 nnn) = .moveIndex nnn := by
  rw [decode_of_family_A (fieldFamily_encodeNNN ..), fieldNNN_encodeNNN]

end Sys2Proof

namespace Sys2Proof.Machine

/-! ### What the instruction does, in terms of the operations of State (R250) -/

theorem exec_moveIndex (s : State) (nnn : Addr12) :
    exec (.moveIndex nnn) s = .next (s.setIndex (nnn.setWidth 16)) := rfl

/-! ### Instructions that write `I` alone -/

theorem State.agreeExcept_setIndex (s : State) (v : Word) : AgreeExcept [.I] s (s.setIndex v) := by
  simp [agreeExcept_iff]

theorem setsIndex_of_exec {i : Instr} {s : State} {v : Word} (h : exec i s = .next (s.setIndex v)) :
    SetsIndex i s v :=
  ⟨s.setIndex v, h, State.setIndex_I s v, State.agreeExcept_setIndex s v⟩

/-! ### The obligation -/

/-- Settles O41: the word decodes to MoveIndex, and MoveIndex is one write of `I`. -/
theorem moveIndexSetsI : Obligations.MoveIndexSetsI := fun s nnn =>
  ⟨decode_encodeNNN_A nnn, setsIndex_of_exec (exec_moveIndex s nnn)⟩

end Sys2Proof.Machine
end

section
/-! Display (43_display.md): what the decoder gives for the word of ClearScreen, what ClearScreen does to the grid, and
the obligation of that family. -/

namespace Sys2Proof

theorem decode_00E0 : decode 0x00E0#16 = .clearScreen := by decide

end Sys2Proof

namespace Sys2Proof.Machine

/-! ### What the instruction does, in terms of the operations of State (R276) -/

theorem exec_clearScreen (s : State) : exec .clearScreen s = .next (s.setDisp Grid.clear) := rfl

/-! ### Instructions that write the grid alone -/

theorem State.agreeExcept_setDisp (s : State) (g : Grid) : AgreeExcept [.disp] s (s.setDisp g) := by
  simp [agreeExcept_iff]

/-! ### The obligation -/

/-- Settles O48: the word decodes to ClearScreen, and ClearScreen is one write of the grid, whose pixels are then all
off. -/
theorem clearScreenTurnsEveryPixelOff : Obligations.ClearScreenTurnsEveryPixelOff := fun s =>
  ⟨decode_00E0, s.setDisp Grid.clear, exec_clearScreen s, Grid.pixel_clear, State.agreeExcept_setDisp s Grid.clear⟩

end Sys2Proof.Machine
end

section
/-! Delay timer (44_keys_timer.md): what the decoder gives for the words of DelayTimerGet and DelayTimerSet, what they do
to V[x] and `dt`, and the obligation of that family. -/

namespace Sys2Proof

/-! ### The decoder, family F (30_encoding.md R111) -/

theorem decode_of_family_F {w : Word} (h : fieldFamily w = 0xF#4) : decode w = decodeMisc w := by
  simp only [decode, h]

theorem decode_encodeX_F (x : Nibble) (sub : Byte) :
    decode (encodeX 0xF#4 x sub) = decodeMisc (encodeX 0xF#4 x sub) :=
  decode_of_family_F (fieldFamily_encodeX ..)

/-! ### Family F, by its low byte -/

section
variable (f x : Nibble)

theorem decodeMisc_encodeX_07 : decodeMisc (encodeX f x 0x07#8) = .delayTimerGet x := by simp [decodeMisc]

theorem decodeMisc_encodeX_15 : decodeMisc (encodeX f x 0x15#8) = .delayTimerSet x := by simp [decodeMisc]

end

end Sys2Proof

namespace Sys2Proof.Machine

/-! ### What the instructions do, in terms of the operations of State (R304, R305) -/

section
variable (s : State) (x : Nibble)

theorem exec_delayTimerGet : exec (.delayTimerGet x) s = .next (s.setReg x s.dt) := rfl

theorem exec_delayTimerSet : exec (.delayTimerSet x) s = .next (s.setDt (s.reg x)) := rfl

end

/-! ### Instructions that write `dt` alone -/

theorem State.agreeExcept_setDt (s : State) (v : Byte) : AgreeExcept [.dt] s (s.setDt v) := by
  simp [agreeExcept_iff]

/-! ### The obligation -/

/-- Settles O55: DelayTimerGet is one register write of `dt`, and DelayTimerSet is one write of `dt` from V[x]. -/
theorem delayTimerIsReadAndSet : Obligations.DelayTimerIsReadAndSet := by
  intro s x
  simp only [decode_encodeX_F]
  refine ⟨⟨decodeMisc_encodeX_07 _ x, ?_⟩, decodeMisc_encodeX_15 _ x, ?_⟩
  · exact setsReg_of_exec (exec_delayTimerGet s x)
  · exact ⟨s.setDt (s.reg x), exec_delayTimerSet s x, State.setDt_dt s (s.reg x), State.agreeExcept_setDt s (s.reg x)⟩

end Sys2Proof.Machine
end

section
/-! Encoding (30_encoding.md section 2): the decoder and the encoder are inverse to each other, the illegal space is
what the decoder rejects, and the opcode table agrees with both. -/

namespace Sys2Proof

/-! ### The decoder, the families not treated above (30_encoding.md R111) -/

theorem decode_of_family_0 {w : Word} (h : fieldFamily w = 0x0#4) :
    decode w = if w = 0x00E0#16 then .clearScreen else if w = 0x00EE#16 then .return_ else .illegal w := by
  simp only [decode, h]

theorem decode_of_family_2 {w : Word} (h : fieldFamily w = 0x2#4) : decode w = .call (fieldNNN w) := by
  simp only [decode, h]

theorem decode_of_family_B {w : Word} (h : fieldFamily w = 0xB#4) : decode w = .illegal w := by
  simp [decode, h]

theorem decode_of_family_C {w : Word} (h : fieldFamily w = 0xC#4) : decode w = .random (fieldX w) (fieldNN w) := by
  simp only [decode, h]

theorem decode_of_family_D {w : Word} (h : fieldFamily w = 0xD#4) :
    decode w = .draw (fieldX w) (fieldY w) (fieldN w) := by
  simp only [decode, h]

theorem decode_of_family_E {w : Word} (h : fieldFamily w = 0xE#4) : decode w = decodeKeys w := by
  simp only [decode, h]

theorem decode_00EE : decode 0x00EE#16 = .return_ := by decide

theorem decode_encodeNNN_2 (nnn : Addr12) : decode (encodeNNN 0x2#4 nnn) = .call nnn := by
  rw [decode_of_family_2 (fieldFamily_encodeNNN ..), fieldNNN_encodeNNN]

theorem decode_encodeXNN_C (x : Nibble) (nn : Byte) : decode (encodeXNN 0xC#4 x nn) = .random x nn := by
  rw [decode_of_family_C (fieldFamily_encodeXNN ..), fieldX_encodeXNN, fieldNN_encodeXNN]

theorem decode_encodeXYN_D (x y n : Nibble) : decode (encodeXYN 0xD#4 x y n) = .draw x y n := by
  rw [decode_of_family_D (fieldFamily_encodeXYN ..), fieldX_encodeXYN, fieldY_encodeXYN, fieldN_encodeXYN]

theorem decode_encodeX_E (x : Nibble) (sub : Byte) :
    decode (encodeX 0xE#4 x sub) = decodeKeys (encodeX 0xE#4 x sub) :=
  decode_of_family_E (fieldFamily_encodeX ..)

/-! ### Families 8, E and F reject what their selector does not list

In each, a listed selector gives an instruction, which is not Illegal, and is in the list; the default case excludes every
listed one. -/

/-- The low nibbles that no row of family 8 has are the seven listed. -/
theorem nibble_unlisted_of_family_8 (n : Nibble) : n ∈ [0x8#4, 0x9#4, 0xA#4, 0xB#4, 0xC#4, 0xD#4, 0xF#4] ↔
    n ∉ [0x0#4, 0x1#4, 0x2#4, 0x3#4, 0x4#4, 0x5#4, 0x6#4, 0x7#4, 0xE#4] := by
  revert n; decide

theorem decodeAlu_eq_illegal_iff (w : Word) : decodeAlu w = .illegal w ↔
    fieldN w ∈ [0x8#4, 0x9#4, 0xA#4, 0xB#4, 0xC#4, 0xD#4, 0xF#4] := by
  rw [nibble_unlisted_of_family_8]
  unfold decodeAlu
  split <;> simp_all

theorem decodeKeys_eq_illegal_iff (w : Word) : decodeKeys w = .illegal w ↔ fieldNN w ∉ [0x9E#8, 0xA1#8] := by
  unfold decodeKeys
  split <;> simp_all

theorem decodeMisc_eq_illegal_iff (w : Word) : decodeMisc w = .illegal w ↔
    fieldNN w ∉ [0x07#8, 0x0A#8, 0x15#8, 0x18#8, 0x1E#8, 0x29#8, 0x33#8, 0x55#8, 0x65#8] := by
  unfold decodeMisc
  split <;> simp_all

/-- The sixteen families. -/
theorem family_cases {P : Nibble → Prop} (f : Nibble) (h0 : P 0x0) (h1 : P 0x1) (h2 : P 0x2) (h3 : P 0x3) (h4 : P 0x4)
    (h5 : P 0x5) (h6 : P 0x6) (h7 : P 0x7) (h8 : P 0x8) (h9 : P 0x9) (hA : P 0xA) (hB : P 0xB) (hC : P 0xC)
    (hD : P 0xD) (hE : P 0xE) (hF : P 0xF) : P f := by
  obtain ⟨f⟩ := f
  fin_cases f <;> assumption

/-- The decoder rejects exactly the illegal space. -/
theorem decode_eq_illegal_iff (w : Word) : decode w = .illegal w ↔ illegalWord w = true := by
  rw [illegalWord_iff]
  generalize hf : fieldFamily w = f
  induction f using family_cases with
  | h0 =>
    rw [decode_of_family_0 hf]
    split_ifs <;> simp_all
  | h1 => simp [decode_of_family_1 hf]
  | h2 => simp [decode_of_family_2 hf]
  | h3 => simp [decode_of_family_3 hf]
  | h4 => simp [decode_of_family_4 hf]
  | h5 => simp [decode_of_family_5 hf]
  | h6 => simp [decode_of_family_6 hf]
  | h7 => simp [decode_of_family_7 hf]
  | h8 => simp [decode_of_family_8 hf, decodeAlu_eq_illegal_iff]
  | h9 => simp [decode_of_family_9 hf]
  | hA => simp [decode_of_family_A hf]
  | hB => simp [decode_of_family_B hf]
  | hC => simp [decode_of_family_C hf]
  | hD => simp [decode_of_family_D hf]
  | hE => simp [decode_of_family_E hf, decodeKeys_eq_illegal_iff]
  | hF => simp [decode_of_family_F hf, decodeMisc_eq_illegal_iff]

/-! ### Encoding what was decoded -/

theorem encodeNNN_of_family {w : Word} {f : Nibble} (h : fieldFamily w = f) : encodeNNN f (fieldNNN w) = w :=
  h ▸ encodeNNN_fields w

theorem encodeXNN_of_family {w : Word} {f : Nibble} {nn : Byte} (h : fieldFamily w = f) (hn : fieldNN w = nn) :
    encodeXNN f (fieldX w) nn = w :=
  h ▸ hn ▸ encodeXNN_fields w

theorem encodeXYN_of_family {w : Word} {f n : Nibble} (h : fieldFamily w = f) (hn : fieldN w = n) :
    encodeXYN f (fieldX w) (fieldY w) n = w :=
  h ▸ hn ▸ encodeXYN_fields w

theorem encode_decodeAlu {w : Word} (h : fieldFamily w = 0x8#4) : encode (decodeAlu w) = w := by
  unfold decodeAlu
  split
  case h_10 => rfl
  all_goals exact encodeXYN_of_family h ‹_›

theorem encode_decodeKeys {w : Word} (h : fieldFamily w = 0xE#4) : encode (decodeKeys w) = w := by
  unfold decodeKeys
  split
  case h_3 => rfl
  all_goals exact encodeXNN_of_family h ‹_›

theorem encode_decodeMisc {w : Word} (h : fieldFamily w = 0xF#4) : encode (decodeMisc w) = w := by
  unfold decodeMisc
  split
  case h_10 => rfl
  all_goals exact encodeXNN_of_family h ‹_›

theorem encode_decode (w : Word) : encode (decode w) = w := by
  generalize hf : fieldFamily w = f
  induction f using family_cases with
  | h0 =>
    rw [decode_of_family_0 hf]
    split_ifs with h1 h2
    exacts [h1.symm, h2.symm, rfl]
  | h1 => rw [decode_of_family_1 hf]; exact encodeNNN_of_family hf
  | h2 => rw [decode_of_family_2 hf]; exact encodeNNN_of_family hf
  | h3 => rw [decode_of_family_3 hf]; exact encodeXNN_of_family hf rfl
  | h4 => rw [decode_of_family_4 hf]; exact encodeXNN_of_family hf rfl
  | h5 =>
    rw [decode_of_family_5 hf]
    split_ifs with hn
    exacts [encodeXYN_of_family hf hn, rfl]
  | h6 => rw [decode_of_family_6 hf]; exact encodeXNN_of_family hf rfl
  | h7 => rw [decode_of_family_7 hf]; exact encodeXNN_of_family hf rfl
  | h8 => rw [decode_of_family_8 hf]; exact encode_decodeAlu hf
  | h9 =>
    rw [decode_of_family_9 hf]
    split_ifs with hn
    exacts [encodeXYN_of_family hf hn, rfl]
  | hA => rw [decode_of_family_A hf]; exact encodeNNN_of_family hf
  | hB => rw [decode_of_family_B hf]; rfl
  | hC => rw [decode_of_family_C hf]; exact encodeXNN_of_family hf rfl
  | hD => rw [decode_of_family_D hf]; exact encodeXYN_of_family hf rfl
  | hE => rw [decode_of_family_E hf]; exact encode_decodeKeys hf
  | hF => rw [decode_of_family_F hf]; exact encode_decodeMisc hf

/-- The decoder rejects a word as itself. -/
theorem eq_of_decode_eq_illegal {w v : Word} (h : decode w = .illegal v) : v = w := by
  simpa [h, encode] using encode_decode w

theorem Instr.wf_iff (i : Instr) : i.wf = true ↔ ∀ w, i = .illegal w → illegalWord w = true := by
  cases i <;> simp [Instr.wf]

theorem decode_wf (w : Word) : (decode w).wf = true := by
  rw [Instr.wf_iff]
  intro v hv
  obtain rfl := eq_of_decode_eq_illegal hv
  exact (decode_eq_illegal_iff v).1 hv

/-! ### Decoding what was encoded -/

theorem decode_encode (i : Instr) (h : i.wf = true) : decode (encode i) = i := by
  cases i with
  | clearScreen => exact decode_00E0
  | return_ => exact decode_00EE
  | jump nnn => exact decode_encodeNNN_1 nnn
  | call nnn => exact decode_encodeNNN_2 nnn
  | skipEqual x nn => exact decode_encodeXNN_3 x nn
  | skipNotEqual x nn => exact decode_encodeXNN_4 x nn
  | skipEqualXY x y => exact (decode_encodeXYN_5 x y 0).trans (if_pos rfl)
  | move x nn => exact decode_encodeXNN_6 x nn
  | add x nn => exact decode_encodeXNN_7 x nn
  | moveXY x y | or x y | and x y | xor x y | addXY x y | subXY x y | shiftRight x y | subYX x y | shiftLeft x y =>
    simp [encode, decode_encodeXYN_8, decodeAlu]
  | skipNotEqualXY x y => exact (decode_encodeXYN_9 x y 0).trans (if_pos rfl)
  | moveIndex nnn => exact decode_encodeNNN_A nnn
  | random x nn => exact decode_encodeXNN_C x nn
  | draw x y n => exact decode_encodeXYN_D x y n
  | skipKey x | skipNotKey x => simp [encode, decode_encodeX_E, decodeKeys]
  | delayTimerGet x | getKey x | delayTimerSet x | setSoundTimer x | addIndex x | fontChar x | decimal x | store x
  | load x => simp [encode, decode_encodeX_F, decodeMisc]
  | illegal w => exact (decode_eq_illegal_iff w).2 h

/-! ### The opcode table -/

/-- The per-instruction statements of Laws/PerInstr.lean as one. -/
theorem encode_matches_own_row_only (i : Instr) : Laws.TablePattern.Statement i := by
  cases i with
  | clearScreen => exact Laws.TablePattern.clearScreen
  | return_ => exact Laws.TablePattern.return_
  | jump nnn => exact Laws.TablePattern.jump nnn
  | call nnn => exact Laws.TablePattern.call nnn
  | skipEqual x nn => exact Laws.TablePattern.skipEqual x nn
  | skipNotEqual x nn => exact Laws.TablePattern.skipNotEqual x nn
  | skipEqualXY x y => exact Laws.TablePattern.skipEqualXY x y
  | move x nn => exact Laws.TablePattern.move x nn
  | add x nn => exact Laws.TablePattern.add x nn
  | moveXY x y => exact Laws.TablePattern.moveXY x y
  | or x y => exact Laws.TablePattern.or x y
  | and x y => exact Laws.TablePattern.and x y
  | xor x y => exact Laws.TablePattern.xor x y
  | addXY x y => exact Laws.TablePattern.addXY x y
  | subXY x y => exact Laws.TablePattern.subXY x y
  | shiftRight x y => exact Laws.TablePattern.shiftRight x y
  | subYX x y => exact Laws.TablePattern.subYX x y
  | shiftLeft x y => exact Laws.TablePattern.shiftLeft x y
  | skipNotEqualXY x y => exact Laws.TablePattern.skipNotEqualXY x y
  | moveIndex nnn => exact Laws.TablePattern.moveIndex nnn
  | random x nn => exact Laws.TablePattern.random x nn
  | draw x y n => exact Laws.TablePattern.draw x y n
  | skipKey x => exact Laws.TablePattern.skipKey x
  | skipNotKey x => exact Laws.TablePattern.skipNotKey x
  | delayTimerGet x => exact Laws.TablePattern.delayTimerGet x
  | getKey x => exact Laws.TablePattern.getKey x
  | delayTimerSet x => exact Laws.TablePattern.delayTimerSet x
  | setSoundTimer x => exact Laws.TablePattern.setSoundTimer x
  | addIndex x => exact Laws.TablePattern.addIndex x
  | fontChar x => exact Laws.TablePattern.fontChar x
  | decimal x => exact Laws.TablePattern.decimal x
  | store x => exact Laws.TablePattern.store x
  | load x => exact Laws.TablePattern.load x
  | illegal w => exact Laws.TablePattern.illegal w

theorem row_matches_iff {row : OpcodeRow} (hr : row ∈ opcodeRows) (w : Word) :
    row.matches w = true ↔ row.mnemonic = (decode w).mnemonic := by
  simpa only [encode_decode] using encode_matches_own_row_only (decode w) (decode_wf w) row hr

/-- Every Operation but Illegal has a row. -/
theorem Instr.exists_row (i : Instr) : (∃ w, i = .illegal w) ∨ ∃ row ∈ opcodeRows, row.mnemonic = i.mnemonic := by
  have rows : ∀ m ∈ opcodeRows.map OpcodeRow.mnemonic, ∃ row ∈ opcodeRows, row.mnemonic = m := by simp
  cases i with
  | illegal w => exact .inl ⟨w, rfl⟩
  | _ => exact .inr (rows _ (by simp only [Instr.mnemonic]; decide))

/-! ### The obligations -/

/-- Settles O2: constructor by constructor, each format's fields are read back from its word; for Illegal it is O5. -/
theorem decodeInvertsEncode : Obligations.DecodeInvertsEncode := decode_encode

/-- Settles O3: family by family, a word is put together again from the fields the decoder took. -/
theorem encodeInvertsDecode : Obligations.EncodeInvertsDecode := fun w => ⟨encode_decode w, decode_wf w⟩

/-- Settles O4: a decoded Operation's word, which is the word decoded, matches its own row of the table only, and every
Operation but Illegal has a row. -/
theorem decodeFollowsOpcodeTable : Obligations.DecodeFollowsOpcodeTable := by
  intro w
  refine ⟨fun row hr hm => ((row_matches_iff hr w).1 hm).symm, fun hno => ?_⟩
  rcases (decode w).exists_row with ⟨v, hv⟩ | ⟨row, hr, hm⟩
  · rw [hv, eq_of_decode_eq_illegal hv]
  · exact absurd ((row_matches_iff hr w).2 hm) (by simp [hno row hr])

/-- Settles O5: family by family, the decoder's selector against the list. -/
theorem illegalWordsAreTheListedOnes : Obligations.IllegalWordsAreTheListedOnes := decode_eq_illegal_iff

/-- Settles O1: the decoder, run on the sample words. -/
theorem decodesSampleWords : Obligations.DecodesSampleWords := ⟨by decide, by decide⟩

end Sys2Proof
end

section
/-! The instructions (files 40 to 44): the state each one leaves, in terms of the operations of State, and what follows
for every instruction at once: that it completes, what it writes, and what it does not read. -/

namespace Sys2Proof.Machine

/-! ### The state an instruction leaves -/

/-- The state after an instruction. `exec` answers a next state for every instruction in every state (`exec_eq`), so
this is all that `exec` says. -/
def State.after (s : State) (i : Instr) : State :=
  match exec i s with
  | .next t => t
  | _ => s

theorem State.after_eq {i : Instr} {s t : State} (h : exec i s = .next t) : s.after i = t := by
  simp only [State.after, h]

section
variable (s : State) (x y n : Nibble) (nn : Byte) (nnn : Addr12)

@[simp] theorem State.after_clearScreen : s.after .clearScreen = s.setDisp Grid.clear := rfl

@[simp] theorem State.after_jump : s.after (.jump nnn) = s.setPc (nnn.setWidth 16) := rfl

@[simp] theorem State.after_call : s.after (.call nnn) = (s.push s.pc).setPc (nnn.setWidth 16) := rfl

@[simp] theorem State.after_skipEqual : s.after (.skipEqual x nn) = s.skipIf (s.reg x == nn) := rfl

@[simp] theorem State.after_skipNotEqual : s.after (.skipNotEqual x nn) = s.skipIf (s.reg x != nn) := rfl

@[simp] theorem State.after_skipEqualXY : s.after (.skipEqualXY x y) = s.skipIf (s.reg x == s.reg y) := rfl

@[simp] theorem State.after_skipNotEqualXY : s.after (.skipNotEqualXY x y) = s.skipIf (s.reg x != s.reg y) := rfl

@[simp] theorem State.after_move : s.after (.move x nn) = s.setReg x nn := rfl

@[simp] theorem State.after_add : s.after (.add x nn) = s.setReg x (s.reg x + nn) := rfl

@[simp] theorem State.after_moveXY : s.after (.moveXY x y) = s.setReg x (s.reg y) := rfl

@[simp] theorem State.after_or : s.after (.or x y) = s.setReg x (s.reg x ||| s.reg y) := rfl

@[simp] theorem State.after_and : s.after (.and x y) = s.setReg x (s.reg x &&& s.reg y) := rfl

@[simp] theorem State.after_xor : s.after (.xor x y) = s.setReg x (s.reg x ^^^ s.reg y) := rfl

@[simp] theorem State.after_addXY : s.after (.addXY x y) = s.setReg x (s.reg x + s.reg y) := rfl

@[simp] theorem State.after_subXY : s.after (.subXY x y) = s.setReg x (s.reg x - s.reg y) := rfl

@[simp] theorem State.after_subYX : s.after (.subYX x y) = s.setReg x (s.reg y - s.reg x) := rfl

@[simp] theorem State.after_moveIndex : s.after (.moveIndex nnn) = s.setIndex (nnn.setWidth 16) := rfl

@[simp] theorem State.after_addIndex : s.after (.addIndex x) = s.setIndex (s.I + s.regWord x) := rfl

@[simp] theorem State.after_fontChar : s.after (.fontChar x) = s.setIndex (glyphAddr (s.reg x)) := rfl

@[simp] theorem State.after_random :
    s.after (.random x nn) = s.countDraw.setReg x (Config.randomByte s.draws &&& nn) := rfl

@[simp] theorem State.after_skipKey : s.after (.skipKey x) = s.skipIf (s.keyDown (s.reg x)) := rfl

@[simp] theorem State.after_skipNotKey : s.after (.skipNotKey x) = s.skipIf (!s.keyDown (s.reg x)) := rfl

@[simp] theorem State.after_delayTimerGet : s.after (.delayTimerGet x) = s.setReg x s.dt := rfl

@[simp] theorem State.after_delayTimerSet : s.after (.delayTimerSet x) = s.setDt (s.reg x) := rfl

@[simp] theorem State.after_setSoundTimer : s.after (.setSoundTimer x) = s := rfl

@[simp] theorem State.after_decimal : s.after (.decimal x) = s.writeMem s.I.toNat (decimalDigits (s.reg x)) := rfl

@[simp] theorem State.after_store : s.after (.store x) = s.writeMem s.I.toNat (s.regsUpTo x) := rfl

@[simp] theorem State.after_load : s.after (.load x) = s.loadRegs 0 (x.toNat + 1) := rfl

@[simp] theorem State.after_illegal (w : Word) :
    s.after (.illegal w) = s.raise (.illegalOpcode s.fetchAddr w) := rfl

/-- V[x] is V[y] halved, but for `x = F`, where it is the flag halved (R238, D7). -/
@[simp] theorem State.after_shiftRight : s.after (.shiftRight x y) = ((s.setReg x (s.reg y)).setFlag
    (shiftRightFlag (s.reg y))).setReg x ((if x = 0xF#4 then shiftRightFlag (s.reg y) else s.reg y) >>> 1) := by
  refine State.after_eq ?_
  simp only [exec, execShiftRight, State.setFlag_reg, State.setReg_reg_self]

/-- V[x] is V[y] doubled, but for `x = F`, where it is the flag doubled (R240, D7). -/
@[simp] theorem State.after_shiftLeft : s.after (.shiftLeft x y) = ((s.setReg x (s.reg y)).setFlag
    (shiftLeftFlag (s.reg y))).setReg x ((if x = 0xF#4 then shiftLeftFlag (s.reg y) else s.reg y) <<< 1) := by
  refine State.after_eq ?_
  simp only [exec, execShiftLeft, State.setFlag_reg, State.setReg_reg_self]

/-- What Draw makes of the grid, and whether it turned a pixel off (43_display.md R277). -/
def State.drawn : Grid × Bool := s.disp.draw (s.originCol x) (s.originRow y) (s.readBlock n.toNat)

@[simp] theorem State.after_draw :
    s.after (.draw x y n) = (s.setDisp (s.drawn x y n).1).setFlag (collisionFlag (s.drawn x y n).2) := rfl

end

@[simp] theorem State.after_return_empty {s : State} (h : s.stack = []) :
    s.after .return_ = s.raise (.stackUnderflow s.fetchAddr) :=
  State.after_eq (exec_return_empty h)

@[simp] theorem State.after_return_cons {s : State} {v : Word} {rest : List Word} (h : s.stack = v :: rest) :
    s.after .return_ = (s.setStack rest).setPc v :=
  State.after_eq (exec_return_cons h)

theorem State.after_getKey_some {s t : State} {k : Nibble} (x : Nibble) (h : s.takeKey = some (k, t)) :
    s.after (.getKey x) = t.setReg x (k.setWidth 8) :=
  State.after_eq (exec_getKey_some x h)

theorem State.after_getKey_none {s : State} (x : Nibble) (h : s.takeKey = none) :
    s.after (.getKey x) = s.setStatus (.waitKey x) :=
  State.after_eq (exec_getKey_none x h)

/-- Every instruction completes in every state. -/
theorem exec_eq (i : Instr) (s : State) : exec i s = .next (s.after i) := by
  cases i with
  | return_ =>
    cases h : s.stack with
    | nil => rw [exec_return_empty h, State.after_return_empty h]
    | cons v rest => rw [exec_return_cons h, State.after_return_cons h]
  | getKey x =>
    cases h : s.takeKey with
    | none => rw [exec_getKey_none x h, State.after_getKey_none x h]
    | some p => rw [exec_getKey_some x h, State.after_getKey_some x h]
  | _ => rfl

theorem completes_iff {i : Instr} {s : State} {post : State → Prop} : Completes i s post ↔ post (s.after i) := by
  simp [Completes, exec_eq]

/-! ### What each operation of State leaves unchanged -/

theorem State.agreeExcept_skipIf (s : State) (c : Bool) : AgreeExcept [.pc] s (s.skipIf c) :=
  State.skipIf_eq s c ▸ State.agreeExcept_setPc s _

theorem State.agreeExcept_setStack (s : State) (vs : List Word) : AgreeExcept [.stack] s (s.setStack vs) := by
  simp [agreeExcept_iff]

theorem State.agreeExcept_raise (s : State) (r : HaltRecord) : AgreeExcept [.status] s (s.raise r) := by
  simp [agreeExcept_iff]

theorem State.agreeExcept_setStatus (s : State) (st : Status) : AgreeExcept [.status] s (s.setStatus st) := by
  simp [agreeExcept_iff]

theorem State.agreeExcept_writeMem (s : State) (a : Nat) (vs : List Byte) : AgreeExcept [.mem] s (s.writeMem a vs) := by
  simp [agreeExcept_iff]

theorem State.agreeExcept_countDraw (s : State) : AgreeExcept [.draws] s s.countDraw := by
  simp [agreeExcept_iff]

theorem State.agreeExcept_setSchedule (s : State) (ts : List Transaction) :
    AgreeExcept [.schedule] s (s.setSchedule ts) := by
  simp [agreeExcept_iff]

theorem State.agreeExcept_loadRegs (s : State) (k n : Nat) : AgreeExcept [.V] s (s.loadRegs k n) := by
  induction n generalizing s k with
  | zero => exact AgreeExcept.refl _ s
  | succ n ih => exact ((State.agreeExcept_setReg s _ _).trans (ih _ _)).mono (by simp)

theorem State.agreeExcept_takeKey {s t : State} {k : Nibble} (h : s.takeKey = some (k, t)) :
    AgreeExcept [.draws] s t := by
  rcases (State.takeKey_some h).2 with rfl | rfl
  · exact AgreeExcept.refl _ t
  · exact State.agreeExcept_countDraw s

/-! ### Frames of the instructions -/

/-- Each instruction writes only the fields its rule names. -/
theorem State.agreeExcept_after (s : State) (i : Instr) : AgreeExcept (fieldsWritten i) s (s.after i) := by
  cases i with
  | return_ =>
    cases h : s.stack with
    | nil => exact State.after_return_empty h ▸ (State.agreeExcept_raise s _).mono (by simp [fieldsWritten])
    | cons v rest =>
      rw [State.after_return_cons h]
      exact ((s.agreeExcept_setStack rest).trans (State.agreeExcept_setPc _ v)).mono (by simp [fieldsWritten])
  | getKey x =>
    cases h : s.takeKey with
    | none => exact State.after_getKey_none x h ▸ (State.agreeExcept_setStatus s _).mono (by simp [fieldsWritten])
    | some p =>
      rw [State.after_getKey_some x h]
      exact ((State.agreeExcept_takeKey h).trans (State.agreeExcept_setReg _ _ _)).mono (by simp [fieldsWritten])
  | skipEqual | skipNotEqual | skipEqualXY | skipNotEqualXY | skipKey | skipNotKey =>
    exact State.agreeExcept_skipIf s _
  | load x => exact State.agreeExcept_loadRegs s _ _
  | _ => simp [agreeExcept_iff, fieldsWritten]

/-- A field that an instruction's rule does not name is the same after it. -/
theorem State.same_after (s : State) {i : Instr} {f : Field} (h : f ∉ fieldsWritten i) : f.same s (s.after i) :=
  s.agreeExcept_after i f h

theorem fieldsWritten_subset (i : Instr) :
    fieldsWritten i ⊆ [.mem, .V, .I, .pc, .stack, .disp, .dt, .status, .draws] := by
  cases i <;> simp [fieldsWritten]

/-- An instruction that ends halted started so, or it is Illegal, or a Return on an empty stack. -/
theorem State.after_halted {s : State} {i : Instr} {r : HaltRecord} (h : (s.after i).status = .halted r) :
    s.status = .halted r ∨ (∃ w, i = .illegal w) ∨ (i = .return_ ∧ s.stack = []) := by
  cases i with
  | illegal w => exact .inr (.inl ⟨w, rfl⟩)
  | return_ =>
    cases hs : s.stack with
    | nil => exact .inr (.inr ⟨rfl, rfl⟩)
    | cons v rest => exact .inl (by simpa [State.after_return_cons hs] using h)
  | getKey x =>
    cases hk : s.takeKey with
    | none => simp [State.after_getKey_none x hk] at h
    | some p =>
      have hp := State.agreeExcept_takeKey hk .status (by simp)
      rw [State.after_getKey_some x hk, State.setReg_status] at h
      exact .inl (hp.symm.trans h)
  | _ => exact .inl ((s.same_after (f := .status) (by simp [fieldsWritten])).symm.trans h)

/-- Each instruction writes only the registers its rule names. -/
theorem State.after_reg_of_not_written (s : State) (i : Instr) (j : Nibble) (hj : regWritten j i = false) :
    (s.after i).reg j = s.reg j := by
  cases i with
  | move | add | moveXY | or | and | xor | addXY | subXY | subYX | random | delayTimerGet =>
    exact State.setReg_reg_ne _ _ _ _ (by simpa [regWritten] using hj)
  | shiftRight x y | shiftLeft x y =>
    obtain ⟨hx, hF⟩ : j ≠ x ∧ j ≠ 0xF#4 := by simpa [regWritten] using hj
    simp [State.setFlag_reg, hx, hF]
  | draw x y n =>
    have hF : j ≠ 0xF#4 := by simpa [regWritten] using hj
    simp [State.setFlag_reg, hF]
  | getKey x =>
    have hx : j ≠ x := by simpa [regWritten] using hj
    cases h : s.takeKey with
    | none => rw [State.after_getKey_none x h, State.setStatus_reg]
    | some p =>
      rw [State.after_getKey_some x h, State.setReg_reg_ne _ _ _ _ hx]
      exact State.agreeExcept_takeKey h .V (by simp) j
  | load x =>
    have hx : x.toNat < j.toNat := by simpa [regWritten] using hj
    rw [State.after_load, (State.loadRegs_spec (x.toNat + 1) s 0 (by omega)).1, if_neg (by omega)]
  | _ => exact s.same_after (f := .V) (by simp [fieldsWritten]) j

end Sys2Proof.Machine
end

section
/-! All instructions (30_encoding.md R123): the obligations about every instruction at once, and what an instruction
does not read. -/

namespace Sys2Proof.Machine

/-! ### The grid and the count of draws are read by Draw, Random and GetKey alone -/

/-- The state with another grid and another count of draws. -/
def State.withDispDraws (s : State) (g : Grid) (n : Nat) : State := { s with disp := g, draws := n }

section
variable (s : State) (g : Grid) (n : Nat)

theorem State.skipIf_withDispDraws (c : Bool) :
    (s.withDispDraws g n).skipIf c = (s.skipIf c).withDispDraws g n := by
  cases c <;> rfl

theorem State.loadRegs_withDispDraws (k m : Nat) :
    (s.withDispDraws g n).loadRegs k m = (s.loadRegs k m).withDispDraws g n := by
  induction m generalizing s k with
  | zero => rfl
  | succ m ih => exact ih (s.setReg _ _) (k + 1)

theorem State.after_return_withDispDraws :
    (s.withDispDraws g n).after .return_ = (s.after .return_).withDispDraws g n := by
  cases h : s.stack with
  | nil => rw [State.after_return_empty h, State.after_return_empty (s := s.withDispDraws g n) h]; rfl
  | cons v rest => rw [State.after_return_cons h, State.after_return_cons (s := s.withDispDraws g n) h]; rfl

/-- An instruction that writes neither the grid nor the count of draws does the same whatever both hold. -/
theorem State.after_withDispDraws {i : Instr} (hdisp : .disp ∉ fieldsWritten i) (hdraws : .draws ∉ fieldsWritten i) :
    (s.withDispDraws g n).after i = (s.after i).withDispDraws g n := by
  cases i with
  | clearScreen | draw => simp [fieldsWritten] at hdisp
  | random | getKey => simp [fieldsWritten] at hdraws
  | return_ => exact s.after_return_withDispDraws g n
  | skipEqual | skipNotEqual | skipEqualXY | skipNotEqualXY | skipKey | skipNotKey =>
    exact s.skipIf_withDispDraws g n _
  | load x => exact s.loadRegs_withDispDraws g n _ _
  | shiftRight x y | shiftLeft x y => simp only [State.after_shiftRight, State.after_shiftLeft]; rfl
  | _ => rfl

theorem State.agreeExcept_withDisp (h : s.draws = n) : AgreeExcept [.disp] s (s.withDispDraws g n) :=
  h ▸ State.agreeExcept_setDisp s g

theorem State.agreeExcept_withDraws (h : s.disp = g) : AgreeExcept [.draws] s (s.withDispDraws g n) := by
  subst h
  simp [agreeExcept_iff, State.withDispDraws, State.readMem, State.reg]

/-- The key taken does not depend on the grid. -/
theorem State.takeKey_setDisp : (s.setDisp g).takeKey = s.takeKey.map fun p => (p.1, p.2.setDisp g) := by
  have h : (s.setDisp g).pressedKeys = s.pressedKeys := rfl
  unfold State.takeKey
  rw [h]
  split <;> rfl

theorem State.after_getKey_setDisp (x : Nibble) :
    (s.setDisp g).after (.getKey x) = (s.after (.getKey x)).setDisp g := by
  have hk := s.takeKey_setDisp g
  cases h : s.takeKey with
  | none =>
    rw [State.after_getKey_none x h, State.after_getKey_none x (by simp [hk, h])]
    rfl
  | some p =>
    rw [State.after_getKey_some x h, State.after_getKey_some x (hk.trans (congrArg _ h))]
    rfl

theorem State.agreeExcept_after_withDisp_of_not_written {i : Instr} (hdisp : .disp ∉ fieldsWritten i)
    (hdraws : .draws ∉ fieldsWritten i) : AgreeExcept [.disp] (s.after i) ((s.setDisp g).after i) :=
  s.after_withDispDraws g s.draws hdisp hdraws ▸ State.agreeExcept_withDisp _ g _ (s.same_after hdraws)

theorem State.agreeExcept_after_withDraws_of_not_written {i : Instr} (hdisp : .disp ∉ fieldsWritten i)
    (hdraws : .draws ∉ fieldsWritten i) :
    AgreeExcept [.draws] (s.after i) ((s.withDispDraws s.disp n).after i) :=
  s.after_withDispDraws s.disp n hdisp hdraws ▸ State.agreeExcept_withDraws _ _ n (s.same_after hdisp)

/-- No instruction but Draw depends on the grid. -/
theorem State.agreeExcept_after_setDisp {i : Instr} (hdraw : ∀ x y m, i ≠ .draw x y m) :
    AgreeExcept [.disp] (s.after i) ((s.setDisp g).after i) := by
  cases i with
  | clearScreen => exact AgreeExcept.refl _ _
  | draw x y m => exact absurd rfl (hdraw x y m)
  | random x nn => exact State.agreeExcept_setDisp _ g
  | getKey x => exact s.after_getKey_setDisp g x ▸ State.agreeExcept_setDisp _ g
  | _ => exact s.agreeExcept_after_withDisp_of_not_written g (by simp [fieldsWritten]) (by simp [fieldsWritten])

/-- The count of draws reaches Random and GetKey alone. -/
theorem State.agreeExcept_after_withDraws {i : Instr} (hrandom : ∀ x nn, i ≠ .random x nn)
    (hkey : ∀ x, i ≠ .getKey x) : AgreeExcept [.draws] (s.after i) ((s.withDispDraws s.disp n).after i) := by
  cases i with
  | clearScreen | draw => exact State.agreeExcept_withDraws _ _ n rfl
  | random x nn => exact absurd rfl (hrandom x nn)
  | getKey x => exact absurd rfl (hkey x)
  | _ => exact s.agreeExcept_after_withDraws_of_not_written n (by simp [fieldsWritten]) (by simp [fieldsWritten])

end

/-! ### Block accesses depend on `I` modulo 4096 alone (20_memory.md R71) -/

theorem Memory.write_congr (m : Memory) {a b : Nat} (h : a % 4096 = b % 4096) (v : Byte) :
    m.write a v = m.write b v := by
  unfold Memory.write Config.memSize
  rw [h]

theorem Memory.writeBlock_congr (m : Memory) {a b : Nat} (h : a % 4096 = b % 4096) (vs : List Byte) :
    m.writeBlock a vs = m.writeBlock b vs := by
  induction vs generalizing m a b with
  | nil => rfl
  | cons v vs ih =>
    simp only [Memory.writeBlock, m.write_congr h v]
    exact ih _ (by omega)

section
variable (s : State) {v : Word} (h : v.toNat % 4096 = s.I.toNat % 4096)
include h

theorem State.readBlock_setIndex (n : Nat) : (s.setIndex v).readBlock n = s.readBlock n := by
  refine List.map_congr_left fun k _ => s.readMem_congr ?_
  simp only [State.blockAddr, State.setIndex_I]
  omega

theorem State.writeMem_setIndex (vs : List Byte) :
    (s.setIndex v).writeMem v.toNat vs = (s.writeMem s.I.toNat vs).setIndex v := by
  simp only [State.writeMem, State.setIndex_mem, s.mem.writeBlock_congr h]
  rfl

theorem State.loadRegs_setIndex (k n : Nat) : (s.setIndex v).loadRegs k n = (s.loadRegs k n).setIndex v := by
  induction n generalizing s k with
  | zero => rfl
  | succ n ih =>
    have hr : (s.setIndex v).readMem (v.toNat + k) = s.readMem (s.I.toNat + k) := s.readMem_congr (by omega)
    simp only [State.loadRegs, State.setIndex_I, hr]
    exact ih (s.setReg _ _) h (k + 1)

/-- Draw, Decimal, Store and Load do the same from any `I` of the same residue, and leave it. -/
theorem State.after_setIndex {i : Instr}
    (hi : (∃ x y n, i = .draw x y n) ∨ ∃ x, i = .decimal x ∨ i = .store x ∨ i = .load x) :
    (s.setIndex v).after i = (s.after i).setIndex v := by
  rcases hi with ⟨x, y, n, rfl⟩ | ⟨x, rfl | rfl | rfl⟩
  · have hd : (s.setIndex v).drawn x y n = s.drawn x y n := by
      simp only [State.drawn, s.readBlock_setIndex h]
      rfl
    rw [State.after_draw, hd]
    rfl
  · exact s.writeMem_setIndex h _
  · exact s.writeMem_setIndex h _
  · exact s.loadRegs_setIndex h _ _

end

/-! ### The obligations -/

/-- Settles O21: `exec` always answers the state after the instruction, and only Illegal and a Return on an empty stack
raise a fault. -/
theorem onlyTwoConditionsFault : Obligations.OnlyTwoConditionsFault := fun _ _ =>
  completes_iff.2 fun _ => State.after_halted

/-- Settles O22: instruction by instruction, the frames of the operations of State it is made of. -/
theorem instructionsWriteOnlyTheirFields : Obligations.InstructionsWriteOnlyTheirFields := by
  intro i s t h
  exact State.after_eq h ▸ s.agreeExcept_after i

/-- Settles O23: an instruction that does not write V leaves all registers; the others write those named. -/
theorem instructionsWriteOnlyTheirRegisters : Obligations.InstructionsWriteOnlyTheirRegisters := by
  intro i s t h j hj
  exact State.after_eq h ▸ s.after_reg_of_not_written i j hj

/-- Settles O25: replacing the grid commutes with every instruction but Draw, up to the grid. -/
theorem onlyDrawReadsTheDisplay : Obligations.OnlyDrawReadsTheDisplay := fun _ s g hdraw =>
  completes_iff.2 (completes_iff.2 (s.agreeExcept_after_setDisp g hdraw))

/-- Settles O26: replacing the count of draws commutes with every instruction but Random and GetKey. -/
theorem drawsReachOnlyRandomAndGetKey : Obligations.DrawsReachOnlyRandomAndGetKey := fun _ s n hrandom hkey =>
  completes_iff.2 (completes_iff.2 (s.agreeExcept_after_withDraws n hrandom hkey))

/-- Settles O27: replacing `I` by a value of the same residue commutes with the four block instructions. -/
theorem blockAccessesUseIModulo4096 : Obligations.BlockAccessesUseIModulo4096 := by
  intro i s v hi h
  refine completes_iff.2 (completes_iff.2 ?_)
  have hu : State.after { s with I := v } i = (s.after i).setIndex v := s.after_setIndex h hi
  rw [hu]
  exact ⟨State.agreeExcept_setIndex _ v, rfl⟩

end Sys2Proof.Machine
end

section
/-! Steps (30_encoding.md section 3, 60_exceptions.md section 5): what a step may change, agent by agent, when it stops,
and the obligations about the step, the Timer, the Host and the run status. -/

namespace Sys2Proof.Machine

/-! ### The moves of the Timer and the Host -/

section
variable (s : State) (rest : List Transaction)

theorem State.agreeExcept_tick : AgreeExcept [.dt, .schedule] s (s.setSchedule rest).tick := by
  simp [agreeExcept_iff, State.tick_eq]

theorem State.agreeExcept_setKeys (ks : Keys) :
    AgreeExcept [.keys, .schedule] s ((s.setSchedule rest).setKeys ks) := by
  simp [agreeExcept_iff]

theorem State.agreeExcept_close : AgreeExcept [.closed, .schedule] s (s.setSchedule rest).close := by
  simp [agreeExcept_iff]

@[simp] theorem State.tick_mem : s.tick.mem = s.mem := by simp [State.tick_eq]

@[simp] theorem State.tick_closed : s.tick.closed = s.closed := by simp [State.tick_eq]

@[simp] theorem State.tick_schedule : s.tick.schedule = s.schedule := by simp [State.tick_eq]

end

/-! ### The Engine's turn -/

theorem State.agreeExcept_advance (s : State) : AgreeExcept [.pc] s s.advance := s.agreeExcept_setPc _

theorem resumeStep_none {s : State} (x : Nibble) (h : s.takeKey = none) : resumeStep x s = .next s := by
  simp only [resumeStep, h]

theorem resumeStep_some {s u : State} {k : Nibble} (x : Nibble) (h : s.takeKey = some (k, u)) :
    resumeStep x s = .next ((u.setReg x (k.setWidth 8)).setStatus .running) := by
  simp only [resumeStep, h]

theorem State.agreeExcept_resume {s u : State} {k : Nibble} (x : Nibble) (v : Byte) (h : s.takeKey = some (k, u)) :
    AgreeExcept [.V, .status, .draws] s ((u.setReg x v).setStatus .running) :=
  (((State.agreeExcept_takeKey h).trans (u.agreeExcept_setReg x v)).trans
    (State.agreeExcept_setStatus _ .running)).mono (by simp)

/-- The Engine's turn leaves what the Host owns, and the schedule. -/
theorem agreeExcept_engineTurn {s t : State} (h : engineTurn exec s = .next t) :
    AgreeExcept [.mem, .V, .I, .pc, .stack, .disp, .dt, .status, .draws] s t := by
  obtain ⟨-, ⟨rfl, -⟩ | ⟨x, k, u, -, hk, rfl⟩ | ⟨-, he⟩⟩ := engineTurn_next h
  · exact AgreeExcept.refl _ _
  · exact (State.agreeExcept_resume x _ hk).mono (by simp)
  · rw [← State.after_eq he]
    exact (s.agreeExcept_advance.trans (State.agreeExcept_after _ _)).mono
      (List.append_subset.2 ⟨by simp, fieldsWritten_subset _⟩)

/-- The turn of a halted engine is idle. -/
theorem engineTurn_of_halted {s t : State} {r : HaltRecord} (hs : s.status = .halted r)
    (h : engineTurn exec s = .next t) : t = s := by
  obtain ⟨-, ⟨rfl, -⟩ | ⟨x, _, _, hw, -⟩ | ⟨hr, -⟩⟩ := engineTurn_next h
  · rfl
  · simp [hs] at hw
  · simp [hs] at hr

/-- The Engine's turn stops after a stack underflow, or else after the close, and only then. -/
theorem engineTurn_outcome (s : State) :
    (∃ fa, s.status = .halted (.stackUnderflow fa) ∧ engineTurn exec s = .fault (.stackUnderflow fa)) ∨
    (s.closed = true ∧ (∀ fa, s.status ≠ .halted (.stackUnderflow fa)) ∧ engineTurn exec s = .fault .hostClosed) ∨
    (s.closed = false ∧ (∀ fa, s.status ≠ .halted (.stackUnderflow fa)) ∧ ∃ t, engineTurn exec s = .next t) := by
  by_cases hu : ∃ fa, s.status = .halted (.stackUnderflow fa)
  · obtain ⟨fa, hs⟩ := hu
    exact .inl ⟨fa, hs, engineTurn_underflow hs⟩
  · have hu := not_exists.1 hu
    cases hc : s.closed with
    | true => exact .inr (.inl ⟨rfl, hu, engineTurn_closed hc hu⟩)
    | false =>
      refine .inr (.inr ⟨rfl, hu, ?_⟩)
      cases hs : s.status with
      | running => exact ⟨_, (engineTurn_running hs hc).trans (exec_eq _ _)⟩
      | waitKey x =>
        rw [engineTurn_waiting hs hc]
        cases hk : s.takeKey with
        | none => exact ⟨_, resumeStep_none x hk⟩
        | some p => exact ⟨_, resumeStep_some x hk⟩
      | halted r =>
        cases r with
        | illegalOpcode fa w => exact ⟨_, engineTurn_illegal hs hc⟩
        | stackUnderflow fa => exact absurd hs (hu fa)

/-! ### Steps -/

/-- A step is a move of the Timer or the Host, which is always taken, or the Engine's turn. -/
theorem step_outcome (s : State) :
    ((∀ rest, ¬EngineNext s rest) ∧ ∃ t, step s = .next t) ∨
      ∃ rest, EngineNext s rest ∧ step s = engineTurn exec (s.setSchedule rest) := by
  rcases hs : s.schedule with _ | ⟨_ | _ | ks | _, ts⟩
  · exact .inr ⟨[], .inr ⟨hs, rfl⟩, step_of_engineNext (.inr ⟨hs, rfl⟩)⟩
  · exact .inr ⟨ts, .inl hs, step_of_engine hs⟩
  · exact .inl ⟨by simp [EngineNext, hs], _, step_of_tick hs⟩
  · exact .inl ⟨by simp [EngineNext, hs], _, step_of_setKeys hs⟩
  · exact .inl ⟨by simp [EngineNext, hs], _, step_of_close hs⟩

/-- What a step can do: a move of the Timer or the Host touches nothing of the Engine's and opens nothing that was
closed; every other step is the Engine's turn. -/
theorem step_cases {s t : State} (h : step s = .next t) :
    (AgreeExcept [.dt, .keys, .closed, .schedule] s t ∧ t.mem = s.mem ∧ (s.closed = true → t.closed = true)) ∨
      ∃ rest, EngineNext s rest ∧ engineTurn exec (s.setSchedule rest) = .next t := by
  obtain ⟨ts, -, rfl⟩ | ⟨ks, ts, -, rfl⟩ | ⟨ts, -, rfl⟩ | hengine := step_next h
  · exact .inl ⟨(s.agreeExcept_tick ts).mono (by simp), by simp, by simp⟩
  · exact .inl ⟨(s.agreeExcept_setKeys ts ks).mono (by simp), by simp, by simp⟩
  · exact .inl ⟨(s.agreeExcept_close ts).mono (by simp), by simp, by simp⟩
  · exact .inr hengine

theorem State.runs_of_running {s : State} (hs : s.status = .running) (hc : s.closed = false) :
    s.runs = some (decode (s.fetch16 s.pc)) := by
  simp [State.runs, hs, hc]

theorem eq_clearScreen_or_draw_of_disp_written {i : Instr} (h : .disp ∈ fieldsWritten i) :
    i = .clearScreen ∨ ∃ x y n, i = .draw x y n := by
  cases i with
  | clearScreen => exact .inl rfl
  | draw x y n => exact .inr ⟨x, y, n, rfl⟩
  | _ => simp [fieldsWritten] at h

/-- The running Engine's turn is its instruction, at the state with `pc` advanced (30_encoding.md R120). -/
theorem step_running {s : State} {rest : List Transaction} (hn : EngineNext s rest) (hs : s.status = .running)
    (hc : s.closed = false) :
    step s = exec (decode (s.fetch16 s.pc)) { s with pc := s.pc + 2, schedule := rest } :=
  (step_of_engineNext hn).trans (engineTurn_running hs hc)

/-- The waiting Engine's turn is a resume (30_encoding.md R121). -/
theorem step_waiting {s : State} {rest : List Transaction} {x : Nibble} (hn : EngineNext s rest)
    (hs : s.status = .waitKey x) (hc : s.closed = false) : step s = resumeStep x (s.setSchedule rest) :=
  (step_of_engineNext hn).trans (engineTurn_waiting hs hc)

/-! ### The obligations about the step -/

/-- Settles O6: the Engine's turn of a running, open engine is its normal step, and the word it fetches is the one
named. -/
theorem stepRunsTheDecodedInstruction : Obligations.StepRunsTheDecodedInstruction := by
  intro s rest w i hn hs hc hw hi _
  have hfetch : s.fetch16 s.pc = w := BitVec.eq_of_toNat_eq ((s.fetch16_toNat s.pc).trans hw.symm)
  rw [step_running hn hs hc, hfetch, hi]

/-- Settles O12: a listed tick is taken, and `dt` in `Nat` holds at zero as truncated subtraction does. -/
theorem tickDecrementsAndHoldsAtZero : Obligations.TickDecrementsAndHoldsAtZero := by
  intro s rest h
  refine ⟨_, step_of_tick h, ?_, State.tick_schedule _, s.agreeExcept_tick rest⟩
  rw [State.tick_dt_toNat, State.setSchedule_dt]
  split <;> omega

/-- Settles O14: each move is one write of its own field. -/
theorem hostMovesChangeTheirOwnField : Obligations.HostMovesChangeTheirOwnField := fun s rest =>
  ⟨fun ks h => ⟨_, step_of_setKeys h, rfl, rfl, s.agreeExcept_setKeys rest ks⟩,
    fun h => ⟨_, step_of_close h, rfl, rfl, s.agreeExcept_close rest⟩⟩

/-- Settles O15: the three moves outside the Engine are one write each, and the Engine's turn is idle, a resume, or an
instruction. -/
theorem agentsWriteOnlyTheirOwnState : Obligations.AgentsWriteOnlyTheirOwnState := by
  intro s t rest h
  refine ⟨fun hs => ?_, fun ks hs => ?_, fun hs => ?_, fun hn => ?_⟩
  · cases (step_of_tick hs).symm.trans h
    exact ⟨s.agreeExcept_tick rest, State.tick_schedule _⟩
  · cases (step_of_setKeys hs).symm.trans h
    exact ⟨s.agreeExcept_setKeys rest ks, rfl⟩
  · cases (step_of_close hs).symm.trans h
    exact ⟨s.agreeExcept_close rest, rfl⟩
  · have hf := agreeExcept_engineTurn ((step_of_engineNext hn).symm.trans h)
    exact ⟨((s.agreeExcept_setSchedule rest).trans hf).mono (by simp), hf .schedule (by simp)⟩

/-- Settles O16: a halted engine's turn is idle, and no other agent touches what the Engine owns. -/
theorem haltedIsFinal : Obligations.HaltedIsFinal := by
  intro s t record hs h
  have idle : ∀ rest, EngineNext s rest → AgreeExcept [.schedule] s t := fun rest hn =>
    engineTurn_of_halted (s := s.setSchedule rest) hs ((step_of_engineNext hn).symm.trans h) ▸
      s.agreeExcept_setSchedule rest
  have frame : AgreeExcept [.dt, .keys, .closed, .schedule] s t := by
    obtain ⟨hf, -⟩ | ⟨rest, hn, -⟩ := step_cases h
    · exact hf
    · exact (idle rest hn).mono (by simp)
  exact ⟨(frame .status (by simp)).trans hs, frame, idle⟩

/-- Settles O17: the Engine's turn after the close stops, and no other agent touches what the Engine owns. -/
theorem closedIsFinal : Obligations.ClosedIsFinal := by
  intro s t hc h
  obtain ⟨hf, -, hclosed⟩ | ⟨rest, -, he⟩ := step_cases h
  · refine ⟨hclosed hc, fun f hmem => ?_⟩
    by_cases hfc : f = .closed
    · subst hfc
      exact (hclosed hc).trans hc.symm
    · exact hf f (by simpa [hfc] using hmem)
  · have hopen := (engineTurn_next he).1
    simp [hc] at hopen

/-- Settles O18: a move of the Timer or the Host is always taken, and the Engine's turn stops by its three-way
outcome. -/
theorem stepStopsExactlyWhenTheRunHasEnded : Obligations.StepStopsExactlyWhenTheRunHasEnded := by
  intro s
  obtain ⟨hno, t, ht⟩ | ⟨rest, hn, he⟩ := step_outcome s
  · simp [ht, hno]
  · have hsome : ∃ rest, EngineNext s rest := ⟨rest, hn⟩
    obtain ⟨fa, hs, hf⟩ | ⟨hc, hs, hf⟩ | ⟨hc, hs, t, hf⟩ := engineTurn_outcome (s.setSchedule rest)
    · rw [State.setSchedule_status] at hs
      simp [he, hf, hsome, hs]
    · rw [State.setSchedule_closed] at hc
      rw [State.setSchedule_status] at hs
      simp [he, hf, hsome, hs, hc]
    · rw [State.setSchedule_closed] at hc
      rw [State.setSchedule_status] at hs
      simp [he, hf, hs, hc]

/-- Settles O19: with no key pressed there is none to take, and the poll is idle. -/
theorem waitHoldsWhileNoKeyIsPressed : Obligations.WaitHoldsWhileNoKeyIsPressed := by
  intro s rest x hn hs hc hk
  have hnone : (s.setSchedule rest).takeKey = none := (State.takeKey_none _).2 hk
  exact ⟨_, (step_waiting hn hs hc).trans (resumeStep_none x hnone), s.agreeExcept_setSchedule rest⟩

theorem keyCode_toNat (k : Nibble) : (k.setWidth 8 : Byte).toNat = k.toNat :=
  BitVec.toNat_setWidth_of_le (by decide)

/-- What a taken key leaves in the registers: its code in V[x], the others as they were. -/
theorem State.reg_of_takeKey {s u : State} {k : Nibble} (x : Nibble) (h : s.takeKey = some (k, u)) :
    ((u.setReg x (k.setWidth 8)).reg x).toNat = k.toNat ∧ RegsExcept x s (u.setReg x (k.setWidth 8)) := by
  refine ⟨by rw [State.setReg_reg_self, keyCode_toNat], fun j hj => ?_⟩
  rw [State.setReg_reg_ne _ _ _ _ hj]
  exact State.agreeExcept_takeKey h .V (by simp) j

/-- Settles O20: with a key pressed there is one to take, and the resume puts its code in V[x]. -/
theorem waitResumesWithAPressedKey : Obligations.WaitResumesWithAPressedKey := by
  intro s rest x j hn hs hc hj
  obtain ⟨k, u, hk⟩ := State.takeKey_isSome (s := s.setSchedule rest) (k := j) hj
  obtain ⟨hx, hregs⟩ := State.reg_of_takeKey x hk
  exact ⟨_, k, (step_waiting hn hs hc).trans (resumeStep_some x hk), (State.takeKey_some hk).1, hx, rfl, hregs,
    ((s.agreeExcept_setSchedule rest).trans (State.agreeExcept_resume x _ hk)).mono (by simp)⟩

/-- Settles O24: of all steps only the running Engine's writes the grid, and then its instruction's rule names it. -/
theorem onlyClearScreenAndDrawChangeTheDisplay : Obligations.OnlyClearScreenAndDrawChangeTheDisplay := by
  intro s t h hne
  obtain ⟨hf, -⟩ | ⟨rest, hn, he⟩ := step_cases h
  · exact absurd (hf .disp (by simp)) hne
  · refine ⟨⟨rest, hn⟩, ?_⟩
    obtain ⟨hc, ⟨rfl, -⟩ | ⟨x, k, u, -, hk, rfl⟩ | ⟨hs, hexec⟩⟩ := engineTurn_next he
    · exact absurd rfl hne
    · exact absurd (State.agreeExcept_resume x _ hk .disp (by simp)) hne
    · have hruns : s.runs = some (decode (s.fetch16 s.pc)) := State.runs_of_running hs hc
      rw [hruns]
      have hw : .disp ∈ fieldsWritten (decode (s.fetch16 s.pc)) := by
        by_contra hnot
        exact hne (State.after_eq hexec ▸ State.same_after _ hnot)
      rcases eq_clearScreen_or_draw_of_disp_written hw with hi | ⟨x, y, n, hi⟩
      · exact .inl (congrArg some hi)
      · exact .inr ⟨x, y, n, congrArg some hi⟩

/-! ### Renders (43_display.md R281, R282) -/

theorem EngineNext.nextTransaction_fst {s : State} {rest : List Transaction} (h : EngineNext s rest) :
    s.nextTransaction.1 = .engine := by
  rcases h with h | ⟨h, -⟩ <;> simp [State.nextTransaction, h]

theorem frames_of_engineNext {s t : State} {rest : List Transaction} (hn : EngineNext s rest) (h : step s = .next t) :
    frames s = List.replicate (drawRenders s.runs + 1) t.disp := by
  simp [frames, hn.nextTransaction_fst, h, State.render]

theorem frames_eq_nil {s : State} (h : ∀ rest, ¬EngineNext s rest) : frames s = [] := by
  have hne : s.nextTransaction.1 ≠ .engine := by
    obtain ⟨hs, -⟩ | ⟨m, ts, hs, ht⟩ := s.nextTransaction_cases
    · exact absurd (.inr ⟨hs, rfl⟩) (h [])
    · rw [ht]
      rintro rfl
      exact h ts (.inl hs)
  unfold frames
  split
  · exact absurd ‹_› hne
  · rfl

/-- Settles O52: the renders of a step are copies of the grid it leaves, and an Engine's turn that goes on hands out at
least one. -/
theorem rendersShowTheCompleteGrid : Obligations.RendersShowTheCompleteGrid := by
  intro s t h
  refine ⟨fun g hg => ?_, fun rest x y n hn _ => ?_⟩
  · by_cases hn : ∃ rest, EngineNext s rest
    · obtain ⟨rest, hn⟩ := hn
      rw [frames_of_engineNext hn h] at hg
      exact List.eq_of_mem_replicate hg
    · simp [frames_eq_nil (not_exists.1 hn)] at hg
  · simp [frames_of_engineNext hn h]

/-! ### Runs -/

theorem run_succ {s u : State} (h : step s = .next u) (n : Nat) :
    Host.Core.run Sys2Proof.core (n + 1) s = Host.Core.run Sys2Proof.core n u := by
  simp only [Host.Core.run, show Sys2Proof.core.step s = .next u from h]

/-- A run of `n + 1` steps that goes on is a step that goes on and a run of `n` steps. -/
theorem step_of_run_succ {s t : State} {n : Nat} (h : Host.Core.run Sys2Proof.core (n + 1) s = .next t) :
    ∃ u, step s = .next u ∧ Host.Core.run Sys2Proof.core n u = .next t := by
  simp only [Host.Core.run] at h
  split at h
  · exact ⟨_, ‹_›, h⟩
  · cases h
  · cases h

/-- Settles O13: induction on the ticks listed, each of which brings `dt` down by one or finds it at zero. -/
theorem enoughTicksBringDtToZero : Obligations.EnoughTicksBringDtToZero := by
  intro s n rest
  induction n generalizing s with
  | zero =>
    intro hdt hs
    exact ⟨s, rfl, BitVec.eq_of_toNat_eq (Nat.le_zero.1 hdt), hs, AgreeExcept.refl _ s⟩
  | succ n ih =>
    intro hdt hs
    have htick : s.schedule = .tick :: (List.replicate n .tick ++ rest) := hs
    obtain ⟨t, hrun, h0, hrest, hf⟩ := ih (s.setSchedule (List.replicate n .tick ++ rest)).tick
      (by rw [State.tick_dt_toNat, State.setSchedule_dt]; omega) (State.tick_schedule _)
    exact ⟨t, (run_succ (step_of_tick htick) n).trans hrun, h0, hrest,
      ((s.agreeExcept_tick _).trans hf).mono (by simp)⟩

/-! ### The invariant -/

/-- Whether a halt's record is true depends on the status, `pc` and the stack. -/
theorem HaltRecordTrue.congr {s t : State} (h : HaltRecordTrue s) (hst : t.status = s.status) (hpc : t.pc = s.pc)
    (hstack : t.stack = s.stack) : HaltRecordTrue t := by
  unfold HaltRecordTrue at h ⊢
  rwa [hst, hpc, hstack]

theorem haltRecordTrue_of_safe {s : State} (h : s.safe) : HaltRecordTrue s := by
  unfold HaltRecordTrue
  split
  · exact absurd ‹_› (h _)
  · exact absurd ‹_› (h _)
  · trivial

theorem State.pc_eq_fetchAddr_add_two (s : State) : s.pc = s.fetchAddr + 2 := (BitVec.sub_add_cancel s.pc 2).symm

/-- From an unhalted state, a well-formed Operation leaves a true record. -/
theorem haltRecordTrue_after {s : State} {i : Instr} (hs : s.safe) (hi : i.wf = true) :
    HaltRecordTrue (s.after i) := by
  by_cases hsafe : (s.after i).safe
  · exact haltRecordTrue_of_safe hsafe
  · obtain ⟨r, hr⟩ : ∃ r, (s.after i).status = .halted r := by simpa [State.safe] using hsafe
    obtain h | ⟨w, rfl⟩ | ⟨rfl, h⟩ := State.after_halted hr
    · exact absurd h (hs r)
    · exact ⟨hi, s.pc_eq_fetchAddr_add_two⟩
    · rw [State.after_return_empty h]
      exact ⟨h, s.pc_eq_fetchAddr_add_two⟩

theorem State.takeKey_mem {s u : State} {k : Nibble} (h : s.takeKey = some (k, u)) : u.mem = s.mem := by
  obtain rfl | rfl := (State.takeKey_some h).2 <;> rfl

/-- Every instruction keeps the canonical form of memory. -/
theorem State.mem_wf_after {s : State} (h : s.mem.wf) (i : Instr) : (s.after i).mem.wf := by
  cases i with
  | decimal | store => exact Memory.wf_writeBlock h _ _
  | return_ =>
    cases hs : s.stack with
    | nil => rwa [State.after_return_empty hs]
    | cons v rest => rwa [State.after_return_cons hs]
  | getKey x =>
    cases hk : s.takeKey with
    | none => rwa [State.after_getKey_none x hk]
    | some p => rwa [State.after_getKey_some x hk, State.setReg_mem, State.takeKey_mem hk]
  | skipEqual | skipNotEqual | skipEqualXY | skipNotEqualXY | skipKey | skipNotKey =>
    simpa [State.skipIf_eq] using h
  | load x => rwa [State.after_load, (State.loadRegs_spec _ s 0 (by omega)).2]
  | _ => exact h

/-- The Engine's turn keeps the invariant. -/
theorem engineTurn_keeps_inv {s t : State} (hinv : s.Inv) (h : engineTurn exec s = .next t) : t.Inv := by
  obtain ⟨hwf, hrec⟩ := hinv
  obtain ⟨-, ⟨rfl, -⟩ | ⟨x, k, u, -, hk, rfl⟩ | ⟨hs, he⟩⟩ := engineTurn_next h
  · exact ⟨hwf, hrec⟩
  · refine ⟨?_, haltRecordTrue_of_safe (by simp [State.safe])⟩
    rwa [State.setStatus_mem, State.setReg_mem, State.takeKey_mem hk]
  · obtain rfl := State.after_eq he
    exact ⟨State.mem_wf_after (s := s.advance) hwf _, haltRecordTrue_after (by simp [State.safe, hs]) (decode_wf _)⟩

/-- Every step keeps the invariant. -/
theorem step_keeps_inv {s t : State} (hinv : s.Inv) (h : step s = .next t) : t.Inv := by
  obtain ⟨hf, hmem, -⟩ | ⟨rest, -, he⟩ := step_cases h
  · exact ⟨hmem ▸ hinv.1, hinv.2.congr (hf .status (by simp)) (hf .pc (by simp)) (hf .stack (by simp))⟩
  · exact engineTurn_keeps_inv (s := s.setSchedule rest) hinv he

theorem State.start_inv (inputs : Inputs) : (State.start inputs).Inv :=
  ⟨⟨List.Pairwise.nil, by simp⟩, trivial⟩

/-- Settles O58: reset's memory lists nothing and its engine is not halted. -/
theorem resetSatisfiesTheInvariant : Obligations.ResetSatisfiesTheInvariant :=
  ⟨State.start_inv Inputs.none, State.start_inv⟩

/-- Settles O59: memory is written by block writes alone, which keep its canonical form; a record is written only by
Illegal and by Return on an empty stack, at the state whose `pc` is two past the fetch, and kept by every other move. -/
theorem everyStepKeepsTheInvariant : Obligations.EveryStepKeepsTheInvariant := fun _ _ => step_keeps_inv

/-- Settles O60: induction on the transactions, by O16 and O59 for the first. -/
theorem aHaltSurvivesEveryRun : Obligations.AHaltSurvivesEveryRun := by
  intro n s t record
  induction n generalizing s with
  | zero =>
    intro hinv hs h
    cases h
    exact ⟨hinv, hs, AgreeExcept.refl _ _⟩
  | succ n ih =>
    intro hinv hs h
    obtain ⟨u, hu, hrun⟩ := step_of_run_succ h
    obtain ⟨hus, huf, -⟩ := haltedIsFinal s u record hs hu
    obtain ⟨htinv, hts, htf⟩ := ih u (step_keeps_inv hinv hu) hus hrun
    exact ⟨htinv, hts, (huf.trans htf).mono (by simp)⟩

end Sys2Proof.Machine
end

section
/-! Memory (20_memory.md, 42_index_memory.md, 70_reset_and_hazards.md section 1): what Decimal, Store and Load leave in
memory and in the registers, what a fetch sees of it, reset and the ROM load, and their obligations. -/

namespace Sys2Proof.Machine

/-! ### The bytes of a fetched word (20_memory.md R75) -/

section
variable (s : State) (a : Word)

theorem State.fetch16_toNat_div : (s.fetch16 a).toNat / 256 = (s.readMem a.toNat).toNat := by
  have := (s.readMem (a.toNat + 1)).isLt
  rw [s.fetch16_toNat]
  omega

theorem State.fetch16_toNat_mod : (s.fetch16 a).toNat % 256 = (s.readMem (a.toNat + 1)).toNat := by
  have := (s.readMem (a.toNat + 1)).isLt
  rw [s.fetch16_toNat]
  omega

end

/-! ### Store, Decimal and Load, byte by byte (R253 to R256) -/

section
variable (s : State) (x : Nibble)

theorem State.readMem_after_store {k : Nibble} {a : Nat} (hk : k.toNat ≤ x.toNat)
    (ha : a % 4096 = (s.I.toNat + k.toNat) % 4096) : (s.after (.store x)).readMem a = s.reg k := by
  have hx : x.toNat < 16 := x.isLt
  rw [State.after_store,
    s.writeMem_readMem_mod _ _ k.toNat a (by rw [State.regsUpTo_length]; omega)
      (by rw [State.regsUpTo_length]; omega) ha,
    State.regsUpTo_getElem, BitVec.ofNat_toNat, BitVec.setWidth_eq]

theorem State.readMem_after_store_outside {a : Nat}
    (ha : ∀ k, k ≤ x.toNat → a % 4096 ≠ (s.I.toNat + k) % 4096) : (s.after (.store x)).readMem a = s.readMem a := by
  refine s.writeMem_readMem_outside _ _ _ fun k hk => ha k ?_
  rw [State.regsUpTo_length] at hk
  omega

theorem State.readMem_after_decimal {k a : Nat} (hk : k < 3) (ha : a % 4096 = (s.I.toNat + k) % 4096) :
    (s.after (.decimal x)).readMem a = (decimalDigits (s.reg x))[k] :=
  s.writeMem_readMem_mod (decimalDigits (s.reg x)) s.I.toNat k a hk (by simp) ha

theorem State.readMem_after_decimal_outside {a : Nat} (ha : ∀ k, k < 3 → a % 4096 ≠ (s.I.toNat + k) % 4096) :
    (s.after (.decimal x)).readMem a = s.readMem a :=
  s.writeMem_readMem_outside _ _ _ ha

theorem State.reg_after_load (k : Nibble) : (s.after (.load x)).reg k =
    if k.toNat ≤ x.toNat then s.readMem (s.I.toNat + k.toNat) else s.reg k := by
  have hx : x.toNat < 16 := x.isLt
  rw [State.after_load, (s.loadRegs_spec (x.toNat + 1) 0 (by omega)).1]
  exact if_congr (by omega) rfl rfl

end

/-! ### The decimal digits -/

section
variable (v : Byte)

theorem decimalDigits_hundreds : (decimalDigits v)[0].toNat = v.toNat / 100 := by
  have := v.isLt
  exact (BitVec.toNat_ofNat ..).trans (Nat.mod_eq_of_lt (by omega))

theorem decimalDigits_tens : (decimalDigits v)[1].toNat = v.toNat / 10 % 10 :=
  (BitVec.toNat_ofNat ..).trans (Nat.mod_eq_of_lt (by omega))

theorem decimalDigits_units : (decimalDigits v)[2].toNat = v.toNat % 10 :=
  (BitVec.toNat_ofNat ..).trans (Nat.mod_eq_of_lt (by omega))

end

/-! ### Reset and the ROM load -/

theorem Memory.read_nil {a : Nat} (h : a < 4096) : Memory.read [] a = resetByte a := by
  rw [Memory.read, Memory.cell, Config.memSize, Nat.mod_eq_of_lt h]

theorem load_of_fits {s : State} {rom : List Byte} (h : rom.length ≤ 3584) :
    load rom s = .next (s.writeMem 0x200 rom) := if_pos h

theorem load_of_too_long {s : State} {rom : List Byte} (h : 3584 < rom.length) :
    load rom s = .refused (.romTooLong rom.length) := if_neg (Nat.not_le.2 h)

/-! ### The obligations -/

/-- Settles O7: every read reduces its address, and a fetch is two reads. -/
theorem addressesWrapModulo4096 : Obligations.AddressesWrapModulo4096 := by
  intro s
  refine ⟨fun a => s.readMem_congr (Nat.add_mod_right a 4096), fun a b h => s.fetch16_congr h, fun a h => ?_⟩
  rw [s.fetch16_toNat, s.readMem_congr (show a.toNat % 4096 = 0xFFF % 4096 from h),
    s.readMem_congr (show (a.toNat + 1) % 4096 = 0 % 4096 by omega)]

/-- Settles O8: a fetch reads memory as the Store or the Decimal left it, its two bytes at the two addresses. -/
theorem fetchSeesStores : Obligations.FetchSeesStores := by
  intro s x
  refine ⟨completes_iff.2 fun k a hk => ⟨fun ha => ?_, fun ha => ?_, fun j hj hjx ha => ?_⟩,
    completes_iff.2 fun a => ⟨fun ha => ?_, fun ha => ?_, fun ha => ?_, fun ha => ?_⟩⟩
  · rw [State.fetch16_toNat_div, s.readMem_after_store x hk ha]
  · rw [State.fetch16_toNat_mod, s.readMem_after_store x hk ha]
  · rw [State.fetch16_toNat, s.readMem_after_store x hk ha, s.readMem_after_store x hjx (by omega)]
  · rw [State.fetch16_toNat_mod, s.readMem_after_decimal x (k := 0) (by omega) ha, decimalDigits_hundreds]
  · rw [State.fetch16_toNat, s.readMem_after_decimal x (k := 0) (by omega) ha,
      s.readMem_after_decimal x (k := 1) (by omega) (by omega), decimalDigits_hundreds, decimalDigits_tens]
  · rw [State.fetch16_toNat, s.readMem_after_decimal x (k := 1) (by omega) ha,
      s.readMem_after_decimal x (k := 2) (by omega) (by omega), decimalDigits_tens, decimalDigits_units]
  · rw [State.fetch16_toNat_div, s.readMem_after_decimal x (k := 2) (by omega) ha, decimalDigits_units]

/-- Settles O9: reset lists no cell, so every address reads as its reset contents; the other fields are literals. -/
theorem resetLeavesTheListedValues : Obligations.ResetLeavesTheListedValues := by
  refine ⟨fun a ha => ?_, fun j => Vector.getElem_replicate .., rfl, rfl, rfl, Grid.pixel_clear, rfl, rfl, rfl,
    State.start_toRecord⟩
  rw [State.readMem, State.reset_mem, Memory.read_nil ha]
  simp only [resetByte, Bool.and_eq_true, decide_eq_true_eq, and_assoc]

/-- Settles O10: the load is a block write at 0x200, which ends below the top of memory; a longer ROM is refused. -/
theorem romLoadPlacesTheBytes : Obligations.RomLoadPlacesTheBytes := by
  intro s rom
  refine ⟨fun hl => ⟨_, load_of_fits hl, fun k hk => ?_, fun a ha hout => ?_, s.agreeExcept_writeMem _ _⟩,
    load_of_too_long⟩
  · exact s.writeMem_readMem rom 0x200 k hk (by omega)
  · exact s.writeMem_readMem_outside rom 0x200 a fun k hk => by omega

/-- Settles O11: the loaded machine is a running, open engine whose fetch at 0x200 gives the ROM's first two bytes. -/
theorem firstStepRunsTheRomsFirstWord : Obligations.FirstStepRunsTheRomsFirstWord := by
  intro hi lo rest inputs later hlen hn
  have hrom : (hi :: lo :: rest).length ≤ 3584 := by simp only [List.length_cons]; omega
  have hread := (State.start inputs).writeMem_readMem (hi :: lo :: rest) 0x200
  refine ⟨_, wordOfBytes hi lo, load_of_fits hrom, wordOfBytes_toNat hi lo, ?_⟩
  rw [step_running (s := (State.start inputs).writeMem 0x200 (hi :: lo :: rest)) hn rfl rfl]
  congr 2
  exact congrArg₂ wordOfBytes (hread 0 (by simp) (by omega)) (hread 1 (by simp) (by omega))

/-- Settles O44: Decimal is one block write of the three digits at `I`. -/
theorem decimalStoresThreeDigits : Obligations.DecimalStoresThreeDigits := by
  intro s x
  refine ⟨decode_encode (.decimal x) rfl, completes_iff.2 ⟨?_, ?_, ?_, ?_, s.agreeExcept_after (.decimal x)⟩⟩
  · rw [s.readMem_after_decimal x (k := 0) (a := s.blockAddr 0) (by omega) rfl, decimalDigits_hundreds]
  · rw [s.readMem_after_decimal x (k := 1) (a := s.blockAddr 1) (by omega) rfl, decimalDigits_tens]
  · rw [s.readMem_after_decimal x (k := 2) (a := s.blockAddr 2) (by omega) rfl, decimalDigits_units]
  · exact fun a => s.readMem_after_decimal_outside x

/-- Settles O45: Store is one block write of V0..Vx at `I`. -/
theorem storeWritesTheRegisters : Obligations.StoreWritesTheRegisters := fun s x =>
  ⟨decode_encode (.store x) rfl, completes_iff.2 ⟨fun _ hk => s.readMem_after_store x hk rfl,
    fun _ => s.readMem_after_store_outside x, s.agreeExcept_after (.store x)⟩⟩

/-- Settles O46: Load is a register write per byte of the block, and a read reduces its address. -/
theorem loadReadsTheRegisters : Obligations.LoadReadsTheRegisters := by
  intro s x
  refine ⟨decode_encode (.load x) rfl,
    completes_iff.2 ⟨fun k hk => ?_, fun k hk => ?_, s.agreeExcept_after (.load x)⟩⟩
  · rw [s.reg_after_load x, if_pos hk]
    exact s.readMem_congr (Nat.mod_mod _ _).symm
  · rw [s.reg_after_load x, if_neg (Nat.not_le.2 hk)]

/-- Settles O47: the Load reads, at the `I` the Store kept, the bytes the Store wrote. -/
theorem storeThenLoadGivesTheRegistersBack : Obligations.StoreThenLoadGivesTheRegistersBack := by
  intro s x file
  refine completes_iff.2 (completes_iff.2 fun k hk => ?_)
  rw [State.reg_after_load, if_pos hk]
  exact s.readMem_after_store x hk rfl

end Sys2Proof.Machine
end

section
/-! Draw (43_display.md section 2): its sprite's pixels as the statements name them, the grid and the flag it leaves,
and its obligations. -/

namespace Sys2Proof.Machine

/-- The sprite of a Draw covers the pixel, as Laws/Display.lean computes it. -/
def State.covers (s : State) (x y n : Nibble) (c r : Nat) : Bool :=
  spriteCovers (s.readBlock n.toNat) (s.originCol x) (s.originRow y) c r

theorem rowCovers_iff (row : Byte) (ox c : Nat) :
    rowCovers row ox c = true ↔ ∃ b < 8, c = ox + b ∧ row.getLsbD (7 - b) = true := by
  simp only [rowCovers, spriteBit, Bool.and_eq_true, decide_eq_true_eq]
  constructor
  · rintro ⟨⟨hle, hlt⟩, hbit⟩
    exact ⟨c - ox, by omega, by omega, hbit⟩
  · rintro ⟨b, hb, rfl, hbit⟩
    exact ⟨⟨by omega, by omega⟩, by rwa [Nat.add_sub_cancel_left]⟩

/-- `SpriteSets` is what the drawing covers. -/
theorem State.covers_iff (s : State) (x y n : Nibble) (c r : Nat) :
    s.covers x y n c r = true ↔ SpriteSets s x y n c r := by
  simp only [State.covers, spriteCovers_eq, rowCovers_iff, State.readBlock_length, State.readBlock_getElem]
  constructor
  · rintro ⟨k, hk, hr, b, hb, hc, hbit⟩
    exact ⟨k, b, hk, hb, hc, hr, hbit⟩
  · rintro ⟨k, b, hk, hb, hc, hr, hbit⟩
    exact ⟨k, hk, hr, b, hb, hc, hbit⟩

section
variable (s : State) (x y n : Nibble)

/-- Draw flips the covered pixels of the grid. -/
theorem State.drawn_pixel (c r : Nat) :
    (s.drawn x y n).1.pixel c r = (s.disp.pixel c r ^^ (decide (InGrid c r) && s.covers x y n c r)) :=
  (Grid.drawRows_spec (s.readBlock n.toNat) (s.disp, false) (s.originCol x) (s.originRow y)).1 c r

/-- A Draw collides if and only if it covers a pixel that is on. -/
theorem State.drawn_hit : (s.drawn x y n).2 = true ↔ ∃ c r, s.covers x y n c r = true ∧ s.disp.pixel c r = true :=
  (Grid.drawRows_spec (s.readBlock n.toNat) (s.disp, false) (s.originCol x) (s.originRow y)).2.trans
    (or_iff_right Bool.false_ne_true)

theorem State.disp_after_draw : (s.after (.draw x y n)).disp = (s.drawn x y n).1 := rfl

theorem State.flag_after_draw : (s.after (.draw x y n)).reg 0xF#4 = collisionFlag (s.drawn x y n).2 := by
  rw [State.after_draw, State.setFlag_reg, if_pos rfl]

theorem State.flag_after_draw_eq_one {c r : Nat} (hcover : s.covers x y n c r = true)
    (hon : s.disp.pixel c r = true) : (s.after (.draw x y n)).reg 0xF#4 = 1 := by
  rw [State.flag_after_draw, (s.drawn_hit x y n).2 ⟨c, r, hcover, hon⟩]
  rfl

/-- A pixel that a Draw changes is one it covers. -/
theorem State.covers_of_pixel_ne {c r : Nat}
    (h : (s.after (.draw x y n)).disp.pixel c r ≠ s.disp.pixel c r) : s.covers x y n c r = true := by
  by_contra hnot
  exact h (by rw [State.disp_after_draw, State.drawn_pixel]; simp [hnot])

end

theorem Grid.inGrid_of_pixel {g : Grid} {c r : Nat} (h : g.pixel c r = true) : InGrid c r := by
  by_contra hout
  simp [Grid.pixel_outside g hout] at h

/-- After a Draw that does not move its own origin, the same Draw covers the same pixels. -/
theorem State.covers_after_draw (s : State) {x y : Nibble} (n : Nibble) (hx : x ≠ 0xF#4) (hy : y ≠ 0xF#4) (c r : Nat) :
    (s.after (.draw x y n)).covers x y n c r = s.covers x y n c r := by
  have hreg : ∀ j, j ≠ 0xF#4 → (s.after (.draw x y n)).reg j = s.reg j := fun j hj => by
    rw [State.after_draw, State.setFlag_reg, if_neg hj, State.setDisp_reg]
  have hblock : (s.after (.draw x y n)).readBlock n.toNat = s.readBlock n.toNat := rfl
  simp only [State.covers, State.originCol, State.originRow, hblock, hreg x hx, hreg y hy]

/-! ### The obligations -/

/-- Settles O49: the covered pixels of the grid are flipped, and a pixel outside the grid is none. -/
theorem drawFlipsTheSpritesPixels : Obligations.DrawFlipsTheSpritesPixels := by
  intro s x y n
  refine ⟨decode_encode (.draw x y n) rfl, completes_iff.2 ⟨fun c r hc hr => ?_, fun j hj => ?_,
    s.agreeExcept_after (.draw x y n)⟩⟩
  · rw [State.disp_after_draw, State.drawn_pixel, ← s.covers_iff]
    have hin : InGrid c r := ⟨hc, hr⟩
    constructor
    · intro hcover
      simp [hin, hcover]
    · intro hcover
      simp [hcover]
  · exact s.after_reg_of_not_written (.draw x y n) j (by simpa [regWritten] using hj)

/-- Settles O50: a pixel turned off is a covered pixel that was on; and a covered pixel that is on is turned off. -/
theorem drawSetsVFToTheCollision : Obligations.DrawSetsVFToTheCollision := by
  intro s x y n
  refine completes_iff.2 ⟨?_, fun hkept => ?_⟩
  · rintro ⟨c, r, -, -, hon, hoff⟩
    exact s.flag_after_draw_eq_one x y n (s.covers_of_pixel_ne x y n (by rw [hon, hoff]; decide)) hon
  · have hno : (s.drawn x y n).2 = false := by
      by_contra hhit
      obtain ⟨c, r, hcover, hon⟩ := (s.drawn_hit x y n).1 (by simpa using hhit)
      have hin := Grid.inGrid_of_pixel hon
      have hpix := hkept c r hin.1 hin.2 hon
      rw [State.disp_after_draw, State.drawn_pixel] at hpix
      simp [hin, hcover, hon] at hpix
    rw [State.flag_after_draw, hno]
    rfl

/-- Settles O51: both Draws cover the same pixels, and flipping twice is no change; a pixel the first turned on is a
covered pixel that is on for the second. -/
theorem drawingTwiceRestoresTheGrid : Obligations.DrawingTwiceRestoresTheGrid := by
  intro s x y n hx hy
  refine completes_iff.2 (completes_iff.2 ⟨Grid.ext_pixel fun c r => ?_, ?_⟩)
  · rw [State.disp_after_draw, State.drawn_pixel, s.covers_after_draw n hx hy, State.disp_after_draw,
      State.drawn_pixel, Bool.xor_assoc, Bool.xor_self, Bool.xor_false]
  · rintro ⟨c, r, hoff, hon⟩
    refine State.flag_after_draw_eq_one _ x y n ?_ hon
    rw [s.covers_after_draw n hx hy]
    exact s.covers_of_pixel_ne x y n (by rw [hoff, hon]; decide)

end Sys2Proof.Machine
end

section
/-! The remaining instructions, one by one (40_control_flow.md section 2, 41_register_alu.md section 2,
42_index_memory.md section 2, 44_keys_timer.md, 60_exceptions.md section 1). -/

namespace Sys2Proof.Machine

/-! ### Control transfer and faults -/

theorem State.fetchAddr_of_pc {s : State} {fa : Word} (h : s.pc = fa + 2) : s.fetchAddr = fa := by
  rw [State.fetchAddr, h, BitVec.add_sub_cancel]

/-- Settles O29: a push of `pc` and a write of it. -/
theorem callPushesTheNextAddress : Obligations.CallPushesTheNextAddress := fun s nnn =>
  ⟨decode_encode (.call nnn) rfl, completes_iff.2 ⟨rfl, rfl, s.agreeExcept_after (.call nnn)⟩⟩

/-- Settles O30: a pop into `pc`. -/
theorem returnPopsIntoPc : Obligations.ReturnPopsIntoPc := by
  intro s v rest h
  rw [completes_iff, State.after_return_cons h]
  exact ⟨rfl, rfl, ((s.agreeExcept_setStack rest).trans (State.agreeExcept_setPc _ v)).mono (by simp)⟩

/-- Settles O31: the fault is raised at the fetch address, which is two before `pc`. -/
theorem returnOnEmptyStackHalts : Obligations.ReturnOnEmptyStackHalts := by
  intro s fa hs hpc
  rw [completes_iff, State.after_return_empty hs, State.fetchAddr_of_pc hpc]
  exact ⟨rfl, s.agreeExcept_raise _⟩

/-- Settles O32: the Return pops what the Call pushed. -/
theorem callThenReturnRestores : Obligations.CallThenReturnRestores := by
  intro s nnn p
  refine completes_iff.2 (completes_iff.2 ?_)
  rw [State.after_return_cons (s := { s.after (.call nnn) with pc := p }) (v := s.pc) (rest := s.stack) rfl]
  simp [agreeExcept_iff, State.readMem, State.reg]

/-- Settles O57: the fault is raised at the fetch address, which is two before `pc`. -/
theorem illegalHaltsWithItsRecord : Obligations.IllegalHaltsWithItsRecord := by
  intro s w fa hpc
  rw [completes_iff, State.after_illegal, State.fetchAddr_of_pc hpc]
  exact ⟨rfl, s.agreeExcept_raise _⟩

/-! ### Registers and arithmetic -/

section
variable (v : Byte)

theorem shiftRightFlag_toNat : (shiftRightFlag v).toNat = v.toNat % 2 := by
  rw [shiftRightFlag, BitVec.toNat_and]
  exact Nat.and_one_is_mod _

theorem shiftLeftFlag_toNat : (shiftLeftFlag v).toNat = v.toNat / 128 := by
  have := v.isLt
  rw [shiftLeftFlag, BitVec.toNat_and, BitVec.toNat_ushiftRight, Nat.shiftRight_eq_div_pow]
  refine (Nat.and_one_is_mod _).trans ?_
  omega

theorem byte_shiftRight_one_toNat : (v >>> 1).toNat = v.toNat / 2 := by
  rw [BitVec.toNat_ushiftRight, Nat.shiftRight_eq_div_pow]

theorem byte_shiftLeft_one_toNat : (v <<< 1).toNat = v.toNat * 2 % 256 := by
  rw [BitVec.toNat_shiftLeft, Nat.shiftLeft_eq]

end

/-- Settles O37: one register write of the sum, which is taken modulo 256. -/
theorem addXYWrapsWithoutCarry : Obligations.AddXYWrapsWithoutCarry := by
  intro s x y
  rw [← byte_add_eq_ofNat]
  exact ⟨decode_encode (.addXY x y) rfl, setsReg_of_exec (exec_eq (.addXY x y) s)⟩

/-- Settles O38: for `x = F` the byte halved is the flag, which is at most 1. -/
theorem shiftRightMovesTheLowBitToVF : Obligations.ShiftRightMovesTheLowBitToVF := by
  intro s x y
  refine ⟨decode_encode (.shiftRight x y) rfl, completes_iff.2 ⟨fun hx => ?_, fun hx => ?_, fun j hjx hjF => ?_,
    s.agreeExcept_after (.shiftRight x y)⟩⟩
  · rw [State.after_shiftRight, if_neg hx, State.setReg_reg_self, State.setReg_reg_ne _ _ _ _ (Ne.symm hx),
      State.setFlag_reg, if_pos rfl]
    exact ⟨byte_shiftRight_one_toNat _, shiftRightFlag_toNat _⟩
  · subst hx
    rw [State.after_shiftRight, if_pos rfl, State.setReg_reg_self]
    apply BitVec.eq_of_toNat_eq
    rw [byte_shiftRight_one_toNat, shiftRightFlag_toNat]
    exact Nat.div_eq_of_lt (Nat.mod_lt _ (by decide))
  · exact s.after_reg_of_not_written (.shiftRight x y) j (by simp [regWritten, hjx, hjF])

/-- Settles O39: for `x = F` the byte doubled is the flag, which is at most 1. -/
theorem shiftLeftMovesTheHighBitToVF : Obligations.ShiftLeftMovesTheHighBitToVF := by
  intro s x y
  refine ⟨decode_encode (.shiftLeft x y) rfl, completes_iff.2 ⟨fun hx => ?_, fun hx => ?_, fun j hjx hjF => ?_,
    s.agreeExcept_after (.shiftLeft x y)⟩⟩
  · rw [State.after_shiftLeft, if_neg hx, State.setReg_reg_self, State.setReg_reg_ne _ _ _ _ (Ne.symm hx),
      State.setFlag_reg, if_pos rfl]
    exact ⟨byte_shiftLeft_one_toNat _, shiftLeftFlag_toNat _⟩
  · subst hx
    have := (s.reg y).isLt
    rw [State.after_shiftLeft, if_pos rfl, State.setReg_reg_self, byte_shiftLeft_one_toNat, shiftLeftFlag_toNat]
    omega
  · exact s.after_reg_of_not_written (.shiftLeft x y) j (by simp [regWritten, hjx, hjF])

/-- Settles O40: one register write of the masked byte, and the draw counted. -/
theorem randomMasksAFreeByte : Obligations.RandomMasksAFreeByte := by
  intro s x nn
  have hx : (s.after (.random x nn)).reg x = Config.randomByte s.draws &&& nn := State.setReg_reg_self ..
  refine ⟨decode_encode (.random x nn) rfl, completes_iff.2 ⟨fun b => ?_, ?_, rfl,
    State.regsExcept_setReg _ x _, s.agreeExcept_after (.random x nn)⟩⟩
  · rw [hx, BitVec.getLsbD_and]
  · rintro rfl
    rw [hx]
    exact BitVec.and_zero

/-! ### The index register -/

/-- Settles O42: one write of `I`, the 16-bit sum with the zero-extended register. -/
theorem addIndexWrapsModulo65536 : Obligations.AddIndexWrapsModulo65536 := by
  intro s x
  have hsum : s.I + s.regWord x = BitVec.ofNat 16 ((s.I.toNat + (s.reg x).toNat) % 65536) := by
    apply BitVec.eq_of_toNat_eq
    rw [BitVec.toNat_add, State.regWord, BitVec.toNat_setWidth_of_le (by decide), BitVec.toNat_ofNat, Nat.mod_mod]
  rw [← hsum]
  exact ⟨decode_encode (.addIndex x) rfl, setsIndex_of_exec (exec_eq (.addIndex x) s)⟩

theorem glyphAddr_eq (v : Byte) : glyphAddr v = BitVec.ofNat 16 (fontBase + glyphBytes * (v.toNat % 16)) := by
  have hmask : (v &&& 0x0F#8).toNat = v.toNat % 16 := by
    rw [BitVec.toNat_and]
    exact Nat.and_two_pow_sub_one_eq_mod _ 4
  rw [glyphAddr, hmask]

/-- Settles O43: one write of `I`; masking with 0x0F is the residue modulo 16. -/
theorem fontCharPointsAtTheGlyph : Obligations.FontCharPointsAtTheGlyph := by
  intro s x
  rw [← glyphAddr_eq]
  exact ⟨decode_encode (.fontChar x) rfl, setsIndex_of_exec (exec_eq (.fontChar x) s)⟩

/-! ### Keys and the sound timer -/

theorem State.keyDown_of_key {s : State} {v : Byte} {k : Nibble} (h : v.toNat = k.toNat) :
    s.keyDown v = s.pressed k := by
  have hk : v.setWidth 4 = k := BitVec.eq_of_toNat_eq (by
    rw [BitVec.toNat_setWidth, h]
    exact Nat.mod_eq_of_lt k.isLt)
  have hlt : v.toNat < 16 := h ▸ k.isLt
  simp [State.keyDown, hk, hlt]

theorem State.keyDown_of_no_key {s : State} {v : Byte} (h : 16 ≤ v.toNat) : s.keyDown v = false := by
  simp [State.keyDown, Nat.not_lt.2 h]

theorem setsPc_skipKey (s : State) (x : Nibble) :
    SetsPc (.skipKey x) s (if s.keyDown (s.reg x) = true then s.pc + 2 else s.pc) :=
  setsPc_of_skipIf (exec_eq (.skipKey x) s) Iff.rfl

theorem setsPc_skipNotKey (s : State) (x : Nibble) :
    SetsPc (.skipNotKey x) s (if s.keyDown (s.reg x) = true then s.pc else s.pc + 2) := by
  have h := setsPc_of_skipIf (exec_eq (.skipNotKey x) s) (Bool.not_eq_true' _).to_iff
  cases hk : s.keyDown (s.reg x) <;> simpa [hk] using h

/-- Settles O53: both are one conditional skip on `keyDown`, which a byte of 16 or more fails. -/
theorem keySkipsTestThePressedKey : Obligations.KeySkipsTestThePressedKey := by
  intro s x
  have hskip := setsPc_skipKey s x
  have hskipNot := setsPc_skipNotKey s x
  refine ⟨decode_encode (.skipKey x) rfl, decode_encode (.skipNotKey x) rfl, fun k hk => ?_, fun h16 => ?_⟩
  · rw [State.keyDown_of_key hk] at hskip hskipNot
    exact ⟨hskip, hskipNot⟩
  · rw [State.keyDown_of_no_key h16] at hskip hskipNot
    exact ⟨hskip, hskipNot⟩

/-- Settles O54: with a key pressed there is one to take; with none the instruction only sets the status. -/
theorem getKeyTakesAPressedKeyOrWaits : Obligations.GetKeyTakesAPressedKeyOrWaits := by
  intro s x
  refine ⟨decode_encode (.getKey x) rfl, fun j hj => ?_, fun hno => ?_⟩
  · obtain ⟨k, u, hk⟩ := State.takeKey_isSome hj
    obtain ⟨hx, hregs⟩ := State.reg_of_takeKey x hk
    rw [completes_iff, State.after_getKey_some x hk]
    exact ⟨⟨k, (State.takeKey_some hk).1, hx⟩, hregs,
      ((State.agreeExcept_takeKey hk).trans (u.agreeExcept_setReg x _)).mono (by simp)⟩
  · rw [completes_iff, State.after_getKey_none x (s.takeKey_none.2 hno)]
    exact ⟨rfl, s.agreeExcept_setStatus _⟩

/-- Settles O56: the state after it is the state before it. -/
theorem setSoundTimerChangesNothing : Obligations.SetSoundTimerChangesNothing := fun s x =>
  ⟨decode_encode (.setSoundTimer x) rfl, completes_iff.2 (AgreeExcept.refl [] s)⟩

end Sys2Proof.Machine
end
